-- ==== Sys2Proof/Word.lean ====
section
/-! DEFINITION. The word types of the block (00_scope.md R5, R6; 20_memory.md R50). -/

namespace Sys2Proof

/-- A host register word, `VW` = `CW` = 32 bits (00 R5). -/
abbrev Word := BitVec 32

/-- An address of the destination address space, `AW` = 32 bits (00 R5, 20 R50). Sums wrap (20 R58). -/
abbrev Addr := BitVec 32

/-- One location of the destination address space (20 R50). -/
abbrev Byte := BitVec 8

end Sys2Proof
end

