-- ==== Sys2Proof/Syntax.lean ====
section
/-! DEFINITION. The commands of spec/opcode_table.json, the base they encode in, and the host
transactions of 30_encoding.md R70. -/

namespace Sys2Proof

/-- The `BASE` bit (10 R33): 0 hexadecimal, 1 decimal. -/
inductive Base where
  | hex
  | dec
  deriving DecidableEq, Repr, Inhabited

/-- The commands: one constructor per row of the opcode table (30 R76). A command has no operand
field: its operands are the registers (30 R75, R79). -/
inductive Instr where
  /-- `ENCHEX`, 43 R131. -/
  | enchex
  /-- `ENCDEC`, 43 R132. -/
  | encdec
  deriving DecidableEq, Repr

/-- The eight registers of the register space (30 R70). -/
inductive HostReg where
  | value
  | dst
  | cap
  | cfg
  | cmd
  | len
  | status
  | reserved
  deriving DecidableEq, Repr

/-- A host transaction (30 R70): `off` is the 3-bit word offset `off[4:2]`. -/
inductive HostTxn where
  /-- `HW(off, wdata)`. -/
  | write (off : BitVec 3) (wdata : Word)
  /-- `HR(off)`. -/
  | read (off : BitVec 3)
  deriving DecidableEq, Repr

end Sys2Proof
end

