-- ==== Sys2Proof/Config.lean ====
section
/-! DEFINITION. The implementation parameters of 00_scope.md R5, and the free values the spec leaves
open (10_state.md R38, 93_implementation_defined.md U13). -/

namespace Sys2Proof.Config

/-- `SCRATCH_DEPTH` = `MAXDIG_DEC` = 10 (00 R5). -/
abbrev scratchDepth : Nat := 10

/-- `NULL_ADDR` = 0: the destination address that counts as null (00 R5, 60 R153; log 15). -/
def nullAddr : Addr := 0

/-- `UPPER_RESET` = 0: lowercase (00 R5; log 15). -/
def upperReset : BitVec 1 := 0

/-- `TERM_RESET` = 0: no terminator (00 R5; log 15). -/
def termReset : BitVec 1 := 0

/-- `TERM_BYTE` = 0x00 (00 R5, 42 R117). -/
def termByte : Byte := 0x00

/-- `REG_BASE`, OPEN (00 R5, 20 R64): where the platform places the register space in the host's
address map. The block decodes only the offset, so no step depends on it (log 16). -/
opaque regBase : Nat

/-- The host address of the register at a word offset (30 R70: byte offset `off * 4`). -/
def regAddress (off : BitVec 3) : Nat := regBase + 4 * off.toNat

/-! Free values: what the internal registers hold after a reset event, which the spec leaves
unspecified (10 R38; log 6). The argument is the value of the counter `freeCount` of State. -/

/-- `ACC` after a reset event. -/
opaque freeAcc : Nat → Word

/-- `CNT` after a reset event. -/
opaque freeCnt : Nat → BitVec 4

/-- `WIDX` after a reset event. -/
opaque freeWidx : Nat → BitVec 4

/-- `BASE` after a reset event. -/
opaque freeBase : Nat → Base

/-- `SCRATCH` after a reset event. -/
opaque freeScratch : Nat → Vector Byte scratchDepth

end Sys2Proof.Config
end

