-- ==== Sys2Proof/Machine/Lut.lean ====
section
/-! DEFINITION. The digit look-up table (40_digit_lut.md): a constant, not state (R94). -/

namespace Sys2Proof.Machine

/-- `LUT(d, u)` (40 R90, R91): the character code of digit value `d`, in the case `u` (true is
uppercase). The codes are ASCII, which the spec takes from general knowledge (93 G1; log 17). -/
def lut (d : BitVec 4) (u : Bool) : Byte :=
  if d ≤ 9 then 0x30 + d.setWidth 8
  else if u then 0x37 + d.setWidth 8
  else 0x57 + d.setWidth 8

end Sys2Proof.Machine
end

