-- ==== Sys2Proof/Machine/Digits.lean ====
section
/-! DEFINITION. The digit string of a value in a base (41_accumulator.md R104). -/

namespace Sys2Proof

/-- The number a base stands for: 16 or 10 (30 R76, 43 R130). -/
def Base.radix : Base → Nat
  | .hex => 16
  | .dec => 10

namespace Machine

/-- `ndig(b, v)` (41 R104): 1 when `v` = 0, otherwise the least `n` with `v < b^n`. No 32-bit value
needs more than `SCRATCH_DEPTH` digits (41 R109), so the search ends there. -/
def ndig (b v : Nat) : Nat :=
  if v = 0 then 1
  else ((List.range (Config.scratchDepth + 1)).find? (fun n => v < b ^ n)).getD Config.scratchDepth

/-- `dig(b, v, i)` (41 R104): the digit of weight `b^i`. -/
def dig (b v i : Nat) : Nat := v / b ^ i % b

/-- The character of the digit of weight `b^i` (41 R105). -/
def digitChar (b v i : Nat) (u : Bool) : Byte := lut (BitVec.ofNat 4 (dig b v i)) u

end Machine

end Sys2Proof
end

