-- ==== Sys2Proof/Decode.lean ====
section
/-! DEFINITION. The command decoder and encoder (30_encoding.md R75 to R78) and the register offset
decoder (30_encoding.md R70). -/

namespace Sys2Proof

/-- Why a word is no command (30 R77). -/
inductive Reject where
  /-- The field `zero` is not 0. -/
  | zeroField (bits : BitVec 28)
  /-- The field `op` is 0 or 3 to 15, with `zero` = 0. -/
  | reservedOp (op : BitVec 4)
  deriving DecidableEq, Repr

/-- What a command word stands for: decoding is total on all 2^32 words (93 U11). -/
inductive Decoded where
  | instr (i : Instr)
  | reserved (why : Reject)
  deriving DecidableEq, Repr

/-- Bits 31:4 of a command word (30 R75). -/
def zeroField (w : Word) : BitVec 28 := w.extractLsb' 4 28

/-- Bits 3:0 of a command word (30 R75). -/
def opField (w : Word) : BitVec 4 := w.extractLsb' 0 4

/-- The command map (30 R76), all 32 bits compared. -/
def decode (w : Word) : Decoded :=
  if zeroField w ≠ 0 then .reserved (.zeroField (zeroField w))
  else if opField w = 0b0001 then .instr .enchex
  else if opField w = 0b0010 then .instr .encdec
  else .reserved (.reservedOp (opField w))

/-- The field `op` of a command (30 R76). -/
def opOf : Instr → BitVec 4
  | .enchex => 0b0001
  | .encdec => 0b0010

/-- The command word of a command: `zero` = 0 in the upper 28 bits, `op` below (30 R75, R76). -/
def encode (i : Instr) : Word := (0 : BitVec 28) ++ opOf i

/-- The base a command encodes in (30 R76, last column). -/
def Instr.base : Instr → Base
  | .enchex => .hex
  | .encdec => .dec

/-- The register selected by `off[4:2]` (30 R70). -/
def HostReg.ofOff (off : BitVec 3) : HostReg :=
  if off = 0 then .value
  else if off = 1 then .dst
  else if off = 2 then .cap
  else if off = 3 then .cfg
  else if off = 4 then .cmd
  else if off = 5 then .len
  else if off = 6 then .status
  else .reserved

/-- The command word that a table row's bits make: a command word has one length, 32 bits (30 R75). -/
def tableWord (nbits w : Nat) : Word := BitVec.ofNat 32 (w % 2 ^ nbits)

/-- The instruction the decoder reads from the table's bits `w`. A word goes to the block whole
(30 R70: no byte lanes), so there is no byte order to lay it out in (log 20). -/
def decodeTableWord (nbits w : Nat) : Option Instr :=
  if nbits ≤ 32 then
    match decode (tableWord nbits w) with
    | .instr i => some i
    | .reserved _ => none
  else none

end Sys2Proof
end

