-- ==== Sys2Proof/Machine/State.lean ====
section
/-! DEFINITION. The state of the machine (10_state.md, 20_memory.md R50), the inputs that the outside
world gives it (00_scope.md R11), the reasons it can stop, and its state after reset
(10_state.md R38). -/

namespace Sys2Proof.Machine

/-- The sequencer's phase (10 R36). -/
inductive Phase where
  | idle
  | extract
  | check
  | write
  | termw
  deriving DecidableEq, Repr

/-- The failures of a command (60 R151). -/
inductive FailCode where
  /-- Code 1 (60 R152). -/
  | capacityExceeded
  /-- Code 2 (60 R153). -/
  | invalidDestination
  /-- Code 3 (60 R154). -/
  | illegalCommand
  deriving DecidableEq, Repr

/-- What the host port completed in a step (30 R70: `h_ready`, `h_rdata`). -/
inductive HostResp where
  /-- A host write completed. -/
  | wrote
  /-- A host read completed and returned `rdata`. -/
  | read (rdata : Word)
  deriving DecidableEq, Repr

/-- One move of the world outside the block (00 R11.1; logs 1, 7, 14). -/
inductive Input where
  /-- The host issues a transaction. A `CMD` write runs undisturbed to its end in one step: from the
  host's side it is one indivisible register write (30 R74). -/
  | txn (t : HostTxn)
  /-- The host writes `w` to `CMD` and the command is followed micro-step by micro-step, so that
  later inputs can fall inside it (00 R10, the micro-step level). -/
  | present (w : Word)
  /-- A clock edge with no event from outside: the encoder takes its next micro-step, if it has one. -/
  | tick
  /-- A clock edge with `rst` = 1 (70 R170). -/
  | rst
  /-- Another agent of the destination address space writes one byte (20 R60 d, e). -/
  | agent (a : Addr) (b : Byte)
  deriving DecidableEq, Repr

/-- The destination address space (20 R50 a): the locations written, addresses strictly rising. A
location not listed holds no particular value (70 R172; log 4). -/
abbrev Memory := List Host.Cell

/-- Why the machine stops with a fault. The block itself never does (60 R157 to R159): the one reason
is for states that no run reaches. -/
inductive Fault where
  /-- Raised by an extraction or write micro-step whose index lies outside `SCRATCH[0..9]`, or that
  has no digit left (10 R31, R32 exclude both). Safe: the hardware has no such state (log 11). -/
  | scratchIndex
  deriving DecidableEq, Repr

/-- Why the machine has no meaning for an instruction. Nothing raises it: both commands have one. -/
inductive Refusal where
  /-- An arm of `exec` that has no meaning yet would answer this. Safe. -/
  | notModelled (mnemonic : String)
  deriving DecidableEq, Repr

/-- The machine. Fields of the spec first; the model's own fields last. -/
structure State where
  /-- `VALUE` (10 R21). -/
  value : Word
  /-- `DST` (10 R22). -/
  dst : Addr
  /-- `CAP` (10 R23). -/
  cap : Word
  /-- `CFG`, its two implemented bits: `UPPER` bit 0, `TERM` bit 1 (10 R25). -/
  cfg : BitVec 2
  /-- `LEN`, its four implemented bits (10 R24). -/
  len : BitVec 4
  /-- `STATUS`, its three implemented bits: `DONE` bit 0, `ERR` bits 2:1 (10 R26). -/
  status : BitVec 3
  /-- `ACC` (10 R30). -/
  acc : Word
  /-- `CNT` (10 R31). -/
  cnt : BitVec 4
  /-- `WIDX` (10 R32). -/
  widx : BitVec 4
  /-- `BASE` (10 R33). -/
  base : Base
  /-- `SCRATCH[0..9]` (10 R34). -/
  scratch : Vector Byte Config.scratchDepth
  /-- `PHASE` (10 R36). -/
  phase : Phase
  /-- The destination address space (20 R50 a). -/
  mem : Memory
  /-- The model's own: the memory-port transactions of the current or last command, in the order
  issued (20 R53, R59; log 9). -/
  issued : List (Addr × Byte)
  /-- The model's own: what the host port completed in the last step (log 9). -/
  resp : Option HostResp
  /-- The model's own: the moves of the outside world still to come, in order (log 7). -/
  inputs : List Input
  /-- The model's own: selects the free values of the next reset event (log 6). -/
  freeCount : Nat
  deriving DecidableEq, Repr

/-- The state after reset (10 R38). `ACC`, `CNT`, `WIDX`, `BASE` and `SCRATCH` are unspecified there:
the zeros are this model's choice (log 5), as are the values of the model's own fields (logs 6, 7, 9). -/
def State.reset : State where
  value := 0
  dst := 0
  cap := 0
  cfg := Config.termReset ++ Config.upperReset
  len := 0
  status := 0
  acc := 0
  cnt := 0
  widx := 0
  base := .hex
  scratch := Vector.replicate Config.scratchDepth 0
  phase := .idle
  mem := []
  issued := []
  resp := none
  inputs := []
  freeCount := 0

end Sys2Proof.Machine
end

