-- ==== Sys2Proof/Machine/Flags.lean ====
section
/-! DEFINITION. The block has no condition codes (10_state.md R37); its only status is `STATUS`, whose
values are computed here (10_state.md R26, 60_exceptions.md R150). -/

namespace Sys2Proof.Machine

/-- The numeric code of a failure (60 R151). -/
def FailCode.code : FailCode → BitVec 2
  | .capacityExceeded => 1
  | .invalidDestination => 2
  | .illegalCommand => 3

/-- `STATUS` after a failure: `{ERR = code, DONE = 1}` (60 R150). -/
def failStatus (c : FailCode) : BitVec 3 := c.code ++ (1 : BitVec 1)

/-- `STATUS` after a success: `DONE` = 1, `ERR` = 0 (42 R118). -/
def successStatus : BitVec 3 := 0b001

/-- `STATUS.DONE`, bit 0 (10 R26). -/
def State.done (s : State) : Bool := s.status.getLsbD 0

/-- `STATUS.ERR`, bits 2:1 (10 R26). -/
def State.err (s : State) : BitVec 2 := s.status.extractLsb' 1 2

end Sys2Proof.Machine
end

