-- ==== Sys2Proof/Machine/Operands.lean ====
section
/-! DEFINITION. Operand assembly (30_encoding.md R79): a command's operands are the registers, read
whole, and the fields of `CFG`. -/

namespace Sys2Proof.Machine

/-- `CFG.UPPER`, bit 0 (10 R25). -/
def State.upper (s : State) : Bool := s.cfg.getLsbD 0

/-- `CFG.TERM`, bit 1 (10 R25). -/
def State.term (s : State) : Bool := s.cfg.getLsbD 1

/-- `CFG.TERM` as the count of terminator bytes, 0 or 1 (42 R115, 43 R130). -/
def State.termCount (s : State) : Nat := s.term.toNat

/-- The launch test on the destination: null, or of zero capacity (41 R100, 60 R153). -/
def State.badDestination (s : State) : Bool := s.dst == Config.nullAddr || s.cap == 0

/-- The address of the byte at offset `k` of the buffer, modulo 2^32 (20 R58). -/
def State.bufferAddr (s : State) (k : Nat) : Addr := s.dst + BitVec.ofNat 32 k

end Sys2Proof.Machine
end

