-- ==== Sys2Proof/Machine/Ops.lean ====
section
/-! DEFINITION. The named operations over memory and registers: the memory port
(20_memory.md R53, R54), the host port's reads and writes (30_encoding.md R71, R72), the end of a command
in failure (60_exceptions.md R150, which stands where an ISA manual has exception entry: nothing is saved
and there is no return, R158, R159) and in success (42_buffer_write.md R118), and the reset event
(70_reset_and_hazards.md R170). -/

namespace Sys2Proof.Machine

/-! ### Memory -/

/-- The canonical form: addresses strictly rising and inside the address space (20 R50 a). A location
not listed has no value, so no entry can repeat it. -/
def Memory.wf : Memory → Bool
  | [] => true
  | [(a, _)] => a < 2 ^ 32
  | (a, _) :: (a', b') :: m => a < a' && Memory.wf ((a', b') :: m)

/-- What a location holds: `none` is no particular value (70 R172). The block never reads memory
(20 R55): this is for claims about it. -/
def Memory.read : Memory → Addr → Option Byte
  | [], _ => none
  | (k, b) :: m, a => if k = a.toNat then some b else Memory.read m a

/-- Store at a key, keeping the canonical form. -/
def Memory.insert : Memory → Nat → Byte → Memory
  | [], k, b => [(k, b)]
  | (k', b') :: m, k, b =>
    if k < k' then (k, b) :: (k', b') :: m
    else if k = k' then (k, b) :: m
    else (k', b') :: Memory.insert m k b

/-- Write one byte at an address of the destination address space (00 R7 `MemWrite` with `n` = 1). -/
def Memory.write (m : Memory) (a : Addr) (b : Byte) : Memory := m.insert a.toNat b

/-- Several bytes, written in order (20 R59). -/
def Memory.writeAll (m : Memory) (ws : List (Addr × Byte)) : Memory :=
  ws.foldl (fun m w => m.write w.1 w.2) m

/-- `MemWrite(a, 1, b)` by the block: one transaction of the memory port (20 R53, R54). Every location
stores what is written to it (log 3). -/
def State.memWrite (s : State) (a : Addr) (b : Byte) : State :=
  { s with mem := s.mem.write a b, issued := s.issued ++ [(a, b)] }

/-- Several `MemWrite`s, in order: the port issues them all and memory takes each after the one before
(20 R59, R60 a). -/
def State.memWrites (s : State) (ws : List (Addr × Byte)) : State :=
  { s with mem := s.mem.writeAll ws, issued := s.issued ++ ws }

/-- A byte written by another agent: not a transaction of the block's port (20 R60 d). -/
def State.agentWrite (s : State) (a : Addr) (b : Byte) : State :=
  { s with mem := s.mem.write a b }

/-! ### The scratch array -/

/-- `SCRATCH[i] <- b`, where there is such an entry (10 R34). -/
def writeScratch (sc : Vector Byte Config.scratchDepth) (i : Nat) (b : Byte) :
    Option (Vector Byte Config.scratchDepth) :=
  if h : i < Config.scratchDepth then some (sc.set i b h) else none

/-- `SCRATCH[i]`, where there is such an entry (10 R34). -/
def readScratch (sc : Vector Byte Config.scratchDepth) (i : Nat) : Option Byte := sc[i]?

/-! ### The end of a command -/

/-- `raise Fail(code)` (60 R150). The internal state keeps what it held. -/
def State.raiseFail (s : State) (c : FailCode) : State :=
  { s with len := 0, status := failStatus c, phase := .idle, resp := some .wrote }

/-- The finish of a successful command with `n` digits (42 R118). -/
def State.finish (s : State) (n : BitVec 4) : State :=
  { s with len := n, status := successStatus, phase := .idle, resp := some .wrote }

/-- The first line of a command: `BASE` is set and the port has issued nothing for it (41 R100). -/
def State.beginCommand (s : State) (b : Base) : State := { s with base := b, issued := [] }

/-- A reserved command word (30 R77, 60 R154): decoding fails before `BASE` is written (41 R100). -/
def illegalCommand (s : State) : State := State.raiseFail { s with issued := [] } .illegalCommand

/-! ### The host port -/

/-- What a host read returns (30 R72): unimplemented bits are 0, `CMD` and offset 0x1C read 0. -/
def State.hostRead (s : State) : HostReg → Word
  | .value => s.value
  | .dst => s.dst
  | .cap => s.cap
  | .cfg => s.cfg.setWidth 32
  | .cmd => 0
  | .len => s.len.setWidth 32
  | .status => s.status.setWidth 32
  | .reserved => 0

/-- What a host write to a register other than `CMD` does (30 R71, R73): bits 31:2 of a write to `CFG`
are dropped, writes to `LEN`, `STATUS` and offset 0x1C are ignored. A write to `CMD` stores nothing
(10 R27): the command it launches is the host port's matter, not this operation's. -/
def State.regWrite (s : State) (r : HostReg) (wdata : Word) : State :=
  match r with
  | .value => { s with value := wdata }
  | .dst => { s with dst := wdata }
  | .cap => { s with cap := wdata }
  | .cfg => { s with cfg := wdata.extractLsb' 0 2 }
  | .cmd => s
  | .len => s
  | .status => s
  | .reserved => s

/-- Take the first input away and forget the last response: what a step does before it acts. -/
def State.take (s : State) (rest : List Input) : State := { s with inputs := rest, resp := none }

/-! ### Reset -/

/-- The reset event (70 R170, R171): every host-visible register and `PHASE` take the values of 10 R38,
a command in progress is abandoned and its `CMD` write is dropped without completing, memory is not
touched. The internal registers are unspecified: free values (log 6). -/
def State.resetEvent (s : State) : State :=
  { s with
    value := 0
    dst := 0
    cap := 0
    cfg := Config.termReset ++ Config.upperReset
    len := 0
    status := 0
    phase := .idle
    acc := Config.freeAcc s.freeCount
    cnt := Config.freeCnt s.freeCount
    widx := Config.freeWidx s.freeCount
    base := Config.freeBase s.freeCount
    scratch := Config.freeScratch s.freeCount
    resp := none
    freeCount := s.freeCount + 1 }

end Sys2Proof.Machine
end

