-- ==== Sys2Proof/Machine/Encode.lean ====
section
/-! DEFINITION. The commands ENCHEX and ENCDEC as one function each (43_commands.md R130 to R132), the
command level of 00_scope.md R10. Host-visible results follow R130; the internal registers are left as the
micro-steps of Machine/Sequencer.lean leave them (log 12). -/

namespace Sys2Proof.Machine

/-- The `MemWrite`s of a successful command, in order (43 R130): the digits, most significant first, and
the terminator when `CFG.TERM` asks for it. -/
def commandWrites (b : Base) (s : State) : List (Addr × Byte) :=
  let v := s.value.toNat
  let n := ndig b.radix v
  (List.range n).map (fun j => (s.bufferAddr j, digitChar b.radix v (n - 1 - j) s.upper))
    ++ if s.term then [(s.bufferAddr n, Config.termByte)] else []

/-- `SCRATCH` after `n` extraction steps (41 R105): entries below `n` hold the digits of weight `b^i`,
the others are stale. -/
def fillScratch (b v : Nat) (u : Bool) (sc : Vector Byte Config.scratchDepth) :
    Nat → Vector Byte Config.scratchDepth
  | 0 => sc
  | n + 1 => (fillScratch b v u sc n).setIfInBounds n (digitChar b v n u)

/-- The internal registers when extraction has ended (41 R105). -/
def State.extracted (s : State) (b : Base) : State :=
  let n := ndig b.radix s.value.toNat
  { s with
    acc := 0
    cnt := BitVec.ofNat 4 n
    scratch := fillScratch b.radix s.value.toNat s.upper s.scratch n }

/-- What the write micro-steps leave (42 R116, R117): the command's bytes in memory, `WIDX` at the digit
count. -/
def State.copiedOut (s : State) (b : Base) : State :=
  { s.memWrites (commandWrites b s) with widx := BitVec.ofNat 4 (ndig b.radix s.value.toNat) }

/-- `Encode(b)` (43 R130). -/
def encodeCommand (b : Base) (s : State) : State :=
  let n := ndig b.radix s.value.toNat
  let begun := s.beginCommand b
  if s.badDestination then begun.raiseFail .invalidDestination
  else if n + s.termCount > s.cap.toNat then (begun.extracted b).raiseFail .capacityExceeded
  else ((begun.extracted b).copiedOut b).finish (BitVec.ofNat 4 n)

/-- ENCHEX (43 R131). -/
def execEnchex (s : State) : Host.Outcome State Fault Refusal := .next (encodeCommand .hex s)

/-- ENCDEC (43 R132). -/
def execEncdec (s : State) : Host.Outcome State Fault Refusal := .next (encodeCommand .dec s)

end Sys2Proof.Machine
end

