-- ==== Sys2Proof/Machine/Dispatch.lean ====
section
/-! DEFINITION. One arm per command of the opcode table. -/

namespace Sys2Proof.Machine

def exec (i : Instr) (s : State) : Host.Outcome State Fault Refusal :=
  match i with
  | .enchex => Sys2Proof.Machine.execEnchex s
  | .encdec => Sys2Proof.Machine.execEncdec s

end Sys2Proof.Machine
end

