-- ==== Sys2Proof/Machine/HostPort.lean ====
section
/-! DEFINITION. The host port's transactions (30_encoding.md R70 to R77): register writes, register reads,
and the `CMD` write that runs a command. -/

namespace Sys2Proof.Machine

/-- The command level of a `CMD` write (30 R74 to R77): a word of the map runs its command, every other
word is an illegal command. Nothing of an earlier command is looked at (30 R77). -/
def command (w : Word) (s : State) : Host.Outcome State Fault Refusal :=
  match decode w with
  | .instr i => exec i s
  | .reserved _ => .next (illegalCommand s)

/-- `HR(off)` (30 R72): no state of the block changes. -/
def hostReadTxn (off : BitVec 3) (s : State) : State :=
  { s with resp := some (.read (s.hostRead (HostReg.ofOff off))) }

/-- `HW(off, wdata)` to a register other than `CMD` (30 R71). -/
def hostWriteTxn (off : BitVec 3) (wdata : Word) (s : State) : State :=
  { s.regWrite (HostReg.ofOff off) wdata with resp := some .wrote }

/-- One host transaction (30 R70). -/
def hostTxn (t : HostTxn) (s : State) : Host.Outcome State Fault Refusal :=
  match t with
  | .read off => .next (hostReadTxn off s)
  | .write off wdata =>
    if HostReg.ofOff off = .cmd then command wdata s else .next (hostWriteTxn off wdata s)

end Sys2Proof.Machine
end

