-- ==== Sys2Proof/Machine/Sequencer.lean ====
section
/-! DEFINITION. The micro-steps of a command (41_accumulator.md R100 to R103, 42_buffer_write.md R115 to
R118), the micro-step level of 00_scope.md R10, moved by `PHASE` (10_state.md R36). -/

namespace Sys2Proof.Machine

/-- Launch of a command of the map (41 R100 after its first line). -/
def launchBase (b : Base) (s : State) : State :=
  let begun := s.beginCommand b
  if s.badDestination then begun.raiseFail .invalidDestination
  else { begun with acc := s.value, cnt := 0, phase := .extract }

/-- The launch micro-step for command word `w` (41 R100). -/
def launch (w : Word) (s : State) : State :=
  match decode w with
  | .instr i => launchBase i.base s
  | .reserved _ => illegalCommand s

/-- The part of an extraction step that both bases share (41 R101, R102): store the digit `d`, replace
`ACC` by `q`, count, and go on while the new `ACC` is not 0. -/
def storeDigit (d : BitVec 4) (q : Word) (s : State) : Host.Outcome State Fault Refusal :=
  match writeScratch s.scratch s.cnt.toNat (lut d s.upper) with
  | none => .fault .scratchIndex
  | some sc =>
    .next { s with
      scratch := sc
      acc := q
      cnt := s.cnt + 1
      phase := if q ≠ 0 then .extract else .check }

/-- Hexadecimal extraction (41 R101). -/
def extractHex (s : State) : Host.Outcome State Fault Refusal :=
  storeDigit (s.acc.extractLsb' 0 4) (s.acc >>> 4) s

/-- Decimal extraction (41 R102): exact unsigned remainder and quotient by 10. -/
def extractDec (s : State) : Host.Outcome State Fault Refusal :=
  storeDigit ((s.acc % 10).setWidth 4) (s.acc / 10) s

/-- One extraction step in the base of the command in progress (41 R101, R102). -/
def extractStep (s : State) : Host.Outcome State Fault Refusal :=
  match s.base with
  | .hex => extractHex s
  | .dec => extractDec s

/-- `need`, the bytes a command must write, as a 32-bit count (42 R115). -/
def State.need (s : State) : Word := s.cnt.setWidth 32 + BitVec.ofNat 32 s.termCount

/-- The capacity check (42 R115). -/
def checkStep (s : State) : State :=
  if s.cap < s.need then s.raiseFail .capacityExceeded
  else { s with widx := 0, phase := .write }

/-- Where a write step goes (42 R116): on, to the terminator, or to the finish of R118. -/
def afterWrite (s : State) : State :=
  if s.widx < s.cnt then s
  else if s.term then { s with phase := .termw }
  else s.finish s.cnt

/-- The write micro-step (42 R116). -/
def writeStep (s : State) : Host.Outcome State Fault Refusal :=
  if s.widx < s.cnt then
    match readScratch s.scratch (s.cnt.toNat - 1 - s.widx.toNat) with
    | none => .fault .scratchIndex
    | some b =>
      .next (afterWrite
        { s.memWrite (s.dst + s.widx.setWidth 32) b with widx := s.widx + 1 })
  else .fault .scratchIndex

/-- The terminator micro-step (42 R117). -/
def termStep (s : State) : State :=
  (s.memWrite (s.dst + s.cnt.setWidth 32) Config.termByte).finish s.cnt

/-- The next micro-step of the sequencer (10 R36); in `IDLE` there is none and the block waits (log 10). -/
def microStep (s : State) : Host.Outcome State Fault Refusal :=
  match s.phase with
  | .idle => .next s
  | .extract => extractStep s
  | .check => .next (checkStep s)
  | .write => writeStep s
  | .termw => .next (termStep s)

end Sys2Proof.Machine
end

