-- ==== Sys2Proof/Machine/Step.lean ====
section
/-! DEFINITION. One step of the machine: the first of `inputs` says which agent moves (00_scope.md R11).
While a command is in progress the host port is held (30_encoding.md R74), so a host transaction waits in
`inputs` and the encoder takes a micro-step instead (log 21). A reset takes the place of a micro-step (log 19). -/

namespace Sys2Proof.Machine

/-- One step. -/
def step (s : State) : Host.Outcome State Fault Refusal :=
  match s.inputs with
  | [] => microStep (s.take [])
  | .tick :: rest => microStep (s.take rest)
  | .rst :: rest => .next (s.take rest).resetEvent
  | .agent a b :: rest => .next ((s.take rest).agentWrite a b)
  | .txn t :: rest =>
    if s.phase = .idle then hostTxn t (s.take rest) else microStep (s.take s.inputs)
  | .present w :: rest =>
    if s.phase = .idle then .next (launch w (s.take rest)) else microStep (s.take s.inputs)

/-- The state in which the next step runs the command word that the table's bits `w` make. A command
reaches the block as a host write to `CMD` (20 R62, 30 R70), so that write is made the next input; the
host port must be free for it, so `PHASE` is `IDLE` (30 R74; log 7). -/
def State.withFetchWord (s : State) (nbits w : Nat) : State :=
  { s with phase := .idle, inputs := .txn (.write 4 (tableWord nbits w)) :: s.inputs }

end Sys2Proof.Machine
end

