-- ==== Sys2Proof/Safety.lean ====
section
/-! DEFINITION. What a safe run is, in the terms the claims use: the invariant of the block's state
(10_state.md R39, 41_accumulator.md R105, 42_buffer_write.md R119), the buffer of a command
(20_memory.md R51), the premise on the address space (93_implementation_defined.md U6), the micro-step
counts (70_reset_and_hazards.md R184) and the parse of a written string (43_commands.md R137). -/

namespace Sys2Proof.Safety

open Sys2Proof.Machine

/-! ### Premises and observations -/

/-- `a` is a location of the destination buffer of a command launched in `s` (20 R51). -/
abbrev InBuffer (s : State) (a : Addr) : Prop := ∃ k, k < s.cap.toNat ∧ a = s.bufferAddr k

/-- The buffer does not cross the top of the address space (93 U6): with it no claim rests on the wrap
of 20 R58 (log 2). -/
abbrev NoWrap (s : State) : Prop := s.dst.toNat + s.cap.toNat ≤ 2 ^ 32

/-- What a micro-step of a command in progress leaves of the inputs: the clock edge `tick` is used up, a host
transaction waits (30 R74; log 21). Before `rst` and `agent` no micro-step is taken. -/
def afterMicroStep : List Input → List Input
  | [] => []
  | .tick :: rest => rest
  | .txn t :: rest => .txn t :: rest
  | .present w :: rest => .present w :: rest
  | .rst :: rest => .rst :: rest
  | .agent a x :: rest => .agent a x :: rest

/-- What `n` micro-steps leave of the inputs. -/
def afterMicroSteps : Nat → List Input → List Input
  | 0, inputs => inputs
  | n + 1, inputs => afterMicroSteps n (afterMicroStep inputs)

/-- While a command is in progress each of the next `n` steps, given these inputs, is a micro-step: until the
inputs end or a host transaction waits at their head, each of them is a clock edge; no reset and no other
agent's write comes. -/
def undisturbed : Nat → List Input → Bool
  | 0, _ => true
  | _ + 1, [] => true
  | n + 1, .tick :: rest => undisturbed n rest
  | _ + 1, .txn _ :: _ => true
  | _ + 1, .present _ :: _ => true
  | _ + 1, .rst :: _ => false
  | _ + 1, .agent _ _ :: _ => false

/-- The digit count of the value in `s` in base `b` (41 R104). -/
abbrev digits (b : Base) (s : State) : Nat := ndig b.radix s.value.toNat

/-- A command in base `b` launched in `s` succeeds (43 R136, the exact condition). -/
abbrev Succeeds (b : Base) (s : State) : Prop :=
  s.dst ≠ Config.nullAddr ∧ digits b s + s.termCount ≤ s.cap.toNat

/-- The number of micro-steps of a command word launched in `s`: the table of 70 R184. -/
def microSteps (w : Word) (s : State) : Nat :=
  match decode w with
  | .reserved _ => 1
  | .instr i =>
    if s.badDestination then 1
    else if digits i.base s + s.termCount > s.cap.toNat then digits i.base s + 2
    else 2 * digits i.base s + 2 + s.termCount

/-- The bytes at `n` locations from `a`. -/
def readBytes (m : Memory) (a : Addr) (n : Nat) : List (Option Byte) :=
  (List.range n).map fun j => m.read (a + BitVec.ofNat 32 j)

/-- The value of a character as a digit, either case of letter accepted (43 R137; codes 40 R91). -/
def charValue (c : Byte) : Option Nat :=
  if 0x30 ≤ c ∧ c ≤ 0x39 then some (c.toNat - 0x30)
  else if 0x61 ≤ c ∧ c ≤ 0x66 then some (c.toNat - 0x57)
  else if 0x41 ≤ c ∧ c ≤ 0x46 then some (c.toNat - 0x37)
  else none

/-- A string of characters, most significant first, as an unsigned number in base `b` (43 R137). -/
def parse (b : Nat) : List (Option Byte) → Option Nat :=
  List.foldl (fun acc c => do
    let v ← acc
    let d ← c >>= charValue
    if d < b then some (v * b + d) else none) (some 0)

/-! ### The invariant -/

/-- The result registers (10 R39): `LEN` in 0 to 10; `LEN` = 0 exactly when `ERR` is not 0 or `DONE`
is 0; `STATUS` one of 0x0, 0x1, 0x3, 0x5, 0x7. -/
abbrev ResultInv (s : State) : Prop :=
  s.len.toNat ≤ 10 ∧ (s.len = 0 ↔ s.err ≠ 0 ∨ s.done = false) ∧
    s.status ∈ [0x0#3, 0x1#3, 0x3#3, 0x5#3, 0x7#3]

/-- `SCRATCH[i]` holds the character of the digit of weight `b^i` for every `i` below `n` (41 R105). -/
abbrev ScratchHolds (s : State) (n : Nat) : Prop :=
  ∀ i, i < n → readScratch s.scratch i = some (digitChar s.base.radix s.value.toNat i s.upper)

/-- Extraction has ended with all the digits (41 R105), and the destination passed the launch test. -/
abbrev ExtractedInv (s : State) : Prop :=
  s.badDestination = false ∧ s.cnt.toNat = digits s.base s ∧ s.acc = 0 ∧ ScratchHolds s s.cnt.toNat

/-- The command in progress, by phase (41 R105; 42 R115 to R117, R119): how far it has come, and that the
port has issued exactly the first `WIDX` of the command's writes. -/
def CommandInv (s : State) : Prop :=
  match s.phase with
  | .idle => True
  | .extract =>
    s.badDestination = false ∧ s.cnt.toNat < digits s.base s ∧
      s.acc.toNat = s.value.toNat / s.base.radix ^ s.cnt.toNat ∧
      ScratchHolds s s.cnt.toNat ∧ s.issued = []
  | .check => ExtractedInv s ∧ s.issued = []
  | .write =>
    ExtractedInv s ∧ s.cnt.toNat + s.termCount ≤ s.cap.toNat ∧ s.widx.toNat < s.cnt.toNat ∧
      s.issued = (commandWrites s.base s).take s.widx.toNat
  | .termw =>
    ExtractedInv s ∧ s.cnt.toNat + s.termCount ≤ s.cap.toNat ∧ s.widx = s.cnt ∧ s.term = true ∧
      s.issued = (commandWrites s.base s).take s.widx.toNat

/-- The invariant that every step keeps. -/
def Good (s : State) : Prop := ResultInv s ∧ Memory.wf s.mem = true ∧ CommandInv s

end Sys2Proof.Safety
end

