-- ==== Sys2Proof/WellFormed.lean ====
section
/-! DEFINITION. Well-formedness of a command word (30_encoding.md R75, R76) and of a command. -/

namespace Sys2Proof

/-- Check 1 of a command word: bits 31:4, the field `zero`, must be 0 (30 R75). -/
def zeroFieldClear (w : Word) : Bool := w >>> 4 == 0

/-- Check 2 of a command word: bits 3:0, the field `op`, name a command of the map (30 R76). -/
def opDefined (w : Word) : Bool := w &&& 0xF == 1 || w &&& 0xF == 2

/-- A word is a command word of the map when both checks pass; every other word is reserved (30 R77). -/
def commandWordWellFormed (w : Word) : Bool := zeroFieldClear w && opDefined w

/-- A command has no operand field (30 R75: no register field, no immediate, no mode field), so
nothing about the term itself can be ill formed. -/
def Instr.wellFormed : Instr → Bool
  | .enchex => true
  | .encdec => true

end Sys2Proof
end

