-- ==== Sys2Proof/Certificates/Slice0/Obligations.lean ====
section
/-! DEFINITION. The statements for the provers. Each docstring names the rules of spec/ it formalises.
A state in which no command is in progress has `phase = .idle`; `Safety.Succeeds b s` is the exact condition
for success of 43 R136; `Safety.digits b s` is `ndig` of `VALUE` in the base (41 R104). -/

open Sys2Proof Sys2Proof.Machine Sys2Proof.Safety

/-! ### Encoding -/

/-- 30 R76: the words of the command map, read and written. A check on fixed words. -/
def Obligations.TableWordsDecode : Prop :=
  decode 0b00000000000000000000000000000001 = .instr .enchex ∧
  decode 0b00000000000000000000000000000010 = .instr .encdec ∧
  encode .enchex = 0x00000001 ∧ encode .encdec = 0x00000002

/-- 30 R76: all 32 bits are compared, and each command encodes in its base and leaves it in `BASE`. -/
def Obligations.DecoderComparesAllBits : Prop :=
  (∀ w : Word, decode w = .instr .enchex ↔ w = 0x00000001) ∧
  (∀ w : Word, decode w = .instr .encdec ↔ w = 0x00000002) ∧
  Base.hex.radix = 16 ∧ Base.dec.radix = 10 ∧
  ∀ s : State,
    (∃ t, exec .enchex s = .next t ∧ t = encodeCommand .hex s ∧ t.base = .hex) ∧
    (∃ t, exec .encdec s = .next t ∧ t = encodeCommand .dec s ∧ t.base = .dec)

/-- 30 R75, R77: the reserved words are those whose field `zero` is not 0 or whose `op` is 0 or 3 to 15;
the well-formed words are the others. -/
def Obligations.ReservedWordsAreTheRest : Prop :=
  ∀ w : Word,
    ((∃ r, decode w = .reserved r) ↔
      w.toNat / 16 ≠ 0 ∨ w.toNat % 16 = 0 ∨ 3 ≤ w.toNat % 16) ∧
    (commandWordWellFormed w = true ↔ ∃ i, decode w = .instr i)

/-- Decode after encode, for every command. -/
def Obligations.DecodeOfEncode : Prop :=
  ∀ i : Instr, i.wellFormed = true → decode (encode i) = .instr i

/-! ### Reset -/

/-- 10 R38: what the host sees after reset, in the state `reset`. -/
def Obligations.ResetRegisterValues : Prop :=
  State.reset.value = 0 ∧ State.reset.dst = 0 ∧ State.reset.cap = 0 ∧ State.reset.cfg = 0 ∧
  State.reset.len = 0 ∧ State.reset.status = 0 ∧ State.reset.phase = .idle ∧
  ∀ r : HostReg, State.reset.hostRead r = 0

/-- 10 R38, 70 R170: the reset event, at any state: the host-visible registers and `PHASE`, no memory write,
no host response; and `DONE`, which tells the reset state from the state after any command. -/
def Obligations.ResetEventRestoresRegisters : Prop :=
  (∀ (s : State) (rest : List Input), s.inputs = .rst :: rest →
    ∃ t, step s = .next t ∧ t.value = 0 ∧ t.dst = 0 ∧ t.cap = 0 ∧ t.cfg = 0 ∧ t.len = 0 ∧
      t.status = 0 ∧ t.phase = .idle ∧ t.mem = s.mem ∧ t.issued = s.issued ∧ t.resp = none ∧
      t.inputs = rest ∧ t.done = false ∧ ∀ r : HostReg, t.hostRead r = 0) ∧
  ∀ (w : Word) (s : State), ∃ t, command w s = .next t ∧ t.done = true

/-- 70 R173: a command with no register written since a reset is refused with code 2 and writes nothing. -/
def Obligations.FirstCommandAfterResetIsRefused : Prop :=
  ∀ (i : Instr) (s : State) (rest : List Input),
    s.inputs = .rst :: .txn (.write 4 (encode i)) :: rest →
    ∃ t, Host.Core.run Sys2Proof.core 2 s = .next t ∧
      t.len = 0 ∧ t.status = 0x5 ∧ t.mem = s.mem ∧ t.issued = []

/-! ### The step and the host port -/

/-- 30 R74, R76: when the next input is the host's `CMD` write of a word that decodes to `i`, and no command
is in progress, the step is `exec i`; before it the input is taken and the last response forgotten. -/
def Obligations.StepRunsTheDecodedCommand : Prop :=
  ∀ (s : State) (rest : List Input) (w : Word) (i : Instr),
    s.phase = .idle → s.inputs = .txn (.write 4 w) :: rest → decode w = .instr i →
    step s = exec i { s with inputs := rest, resp := none }

/-- 30 R77, 60 R154: a reserved word is an illegal command, at the command level and at the micro-step level, whatever
`DST` and `CAP` hold: `LEN` = 0, `STATUS` = 0x7, no memory write, the operand registers unchanged, and the
write completes. -/
def Obligations.ReservedWordFailsWithCode3 : Prop :=
  ∀ (s : State) (rest : List Input) (w : Word), s.phase = .idle →
    (s.inputs = .txn (.write 4 w) :: rest ∨ s.inputs = .present w :: rest) →
    w ≠ 0x00000001 → w ≠ 0x00000002 →
    step s = .next { s with
      len := 0, status := 0x7, issued := [], resp := some .wrote, inputs := rest }

/-- 30 R71: a host write, by offset. Other than to `CMD` nothing else changes; to `CMD` it is the command. -/
def Obligations.HostWriteStoresTheRegister : Prop :=
  ∀ (s : State) (rest : List Input) (off : BitVec 3) (wdata : Word), s.phase = .idle →
    s.inputs = .txn (.write off wdata) :: rest →
    (off ≠ 4 → step s = .next { s with
      inputs := rest
      resp := some .wrote
      value := if off = 0 then wdata else s.value
      dst := if off = 1 then wdata else s.dst
      cap := if off = 2 then wdata else s.cap
      cfg := if off = 3 then BitVec.ofNat 2 (wdata.toNat % 4) else s.cfg }) ∧
    (off = 4 → step s = command wdata { s with inputs := rest, resp := none })

/-- 30 R72: a host read, by offset; no state of the block changes. -/
def Obligations.HostReadReturnsTheRegister : Prop :=
  ∀ (s : State) (rest : List Input) (off : BitVec 3), s.phase = .idle →
    s.inputs = .txn (.read off) :: rest →
    ∃ v : Word, step s = .next { s with inputs := rest, resp := some (.read v) } ∧
      v.toNat = if off = 0 then s.value.toNat else if off = 1 then s.dst.toNat
        else if off = 2 then s.cap.toNat else if off = 3 then s.cfg.toNat
        else if off = 5 then s.len.toNat else if off = 6 then s.status.toNat else 0

/-- 70 R178, 30 R74: while a command is in progress the host port is held: the next transaction stays where it is, the
operand registers keep their values, and the port completes nothing until the command ends. -/
def Obligations.HostPortIsHeldDuringACommand : Prop :=
  ∀ (s t : State) (rest : List Input), s.phase ≠ .idle →
    ((∃ x, s.inputs = .txn x :: rest) ∨ ∃ w, s.inputs = .present w :: rest) → step s = .next t →
    t.inputs = s.inputs ∧ t.value = s.value ∧ t.dst = s.dst ∧ t.cap = s.cap ∧ t.cfg = s.cfg ∧
      (t.phase ≠ .idle → t.resp = none ∧ t.len = s.len ∧ t.status = s.status) ∧
      (t.phase = .idle → t.resp = some .wrote)

/-- 10 R26, R29: `LEN` and `STATUS` change only by a reset or when a command ends, and `DONE` falls only by a
reset; over every step. -/
def Obligations.ResultsChangeOnlyWhenACommandEnds : Prop :=
  ∀ s t : State, step s = .next t → (∀ rest, s.inputs ≠ .rst :: rest) →
    (s.done = true → t.done = true) ∧
    (t.len ≠ s.len ∨ t.status ≠ s.status →
      t.phase = .idle ∧ t.resp = some .wrote ∧ t.done = true)

/-- 10 R29: the operand registers change only by a reset or by the host's write to one of them; over every
step. -/
def Obligations.OperandsChangeOnlyByTheHost : Prop :=
  ∀ s t : State, step s = .next t →
    (t.value ≠ s.value ∨ t.dst ≠ s.dst ∨ t.cap ≠ s.cap ∨ t.cfg ≠ s.cfg) →
    (∃ rest, s.inputs = .rst :: rest) ∨
    s.phase = .idle ∧ ∃ off wdata rest, off.toNat ≤ 3 ∧ s.inputs = .txn (.write off wdata) :: rest

/-- 20 R50 a, R62: memory changes only by another agent's write, by a write or terminator micro-step, or by a
command run in one step; over every step. -/
def Obligations.MemoryChangesOnlyByWrites : Prop :=
  ∀ s t : State, step s = .next t → t.mem ≠ s.mem →
    (∃ a x rest, s.inputs = .agent a x :: rest) ∨ s.phase = .write ∨ s.phase = .termw ∨
    s.phase = .idle ∧ ∃ w i rest, s.inputs = .txn (.write 4 w) :: rest ∧ decode w = .instr i ∧
      Succeeds i.base s

/-- Another agent's write changes the byte it writes, and nothing of the block. That such a write is an input and
that every location then reads back the byte is this model's choice (logs 14 and 3): 20 R60 d says only that other
agents may write, and 20 R64 leaves to the platform which addresses are storage. -/
def Obligations.OtherAgentWritesOneByte : Prop :=
  ∀ (s : State) (rest : List Input) (a : Addr) (x : Byte), s.inputs = .agent a x :: rest →
    ∃ t, step s = .next t ∧ t.mem.read a = some x ∧
      (∀ c, c ≠ a → t.mem.read c = s.mem.read c) ∧
      t = { s with mem := t.mem, inputs := rest, resp := none }

/-! ### The look-up table and the digits -/

/-- 40 R91: the character codes, in the closed form and over the whole table of the rule. -/
def Obligations.LutCharacterCodes : Prop :=
  (∀ (d : BitVec 4) (u : Bool), d.toNat ≤ 9 → (lut d u).toNat = 0x30 + d.toNat) ∧
  (∀ d : BitVec 4, 10 ≤ d.toNat → (lut d false).toNat = 0x57 + d.toNat) ∧
  (∀ d : BitVec 4, 10 ≤ d.toNat → (lut d true).toNat = 0x37 + d.toNat) ∧
  (∀ (d : BitVec 4) (u : Bool), (lut d u).toNat < 0x80)

/-- 40 R90: the mapping is injective in each case. -/
def Obligations.LutIsInjective : Prop :=
  ∀ (d e : BitVec 4) (u : Bool), lut d u = lut e u → d = e

/-- 41 R104: the digit string of a 32-bit value: it is the value, its length is least, and its first digit
is 0 only for the value 0. -/
def Obligations.DigitStringIsCanonical : Prop :=
  ∀ (b : Base) (v : Nat), v < 2 ^ 32 →
    v = ((List.range (ndig b.radix v)).map fun i => dig b.radix v i * b.radix ^ i).sum ∧
    1 ≤ ndig b.radix v ∧ v < b.radix ^ ndig b.radix v ∧
    (∀ n, 1 ≤ n → v < b.radix ^ n → ndig b.radix v ≤ n) ∧
    (v ≠ 0 → dig b.radix v (ndig b.radix v - 1) ≠ 0) ∧
    ∀ i, dig b.radix v i = v / b.radix ^ i % b.radix

/-- 41 R106: the hexadecimal digit count by range of the value. -/
def Obligations.HexDigitCountByRange : Prop :=
  ∀ v, v < 2 ^ 32 → 1 ≤ ndig 16 v ∧ ndig 16 v ≤ 8 ∧
    ∀ n, 1 ≤ n → n ≤ 8 → (ndig 16 v = n ↔ (n = 1 ∨ 16 ^ (n - 1) ≤ v) ∧ v < 16 ^ n)

/-- 41 R107: the decimal digit count by range of the value. -/
def Obligations.DecDigitCountByRange : Prop :=
  ∀ v, v < 2 ^ 32 → 1 ≤ ndig 10 v ∧ ndig 10 v ≤ 10 ∧
    ∀ n, 1 ≤ n → n ≤ 10 → (ndig 10 v = n ↔ (n = 1 ∨ 10 ^ (n - 1) ≤ v) ∧ v < 10 ^ n)

/-! ### The commands -/

/-- 43 R130: `Encode(b)`, all three outcomes of a command, for every state. The `MemWrite`s are the list
`t.issued`, in order; memory is what they leave. -/
def Obligations.CommandIsTheEncodeFunction : Prop :=
  ∀ (i : Instr) (s : State), ∃ t, exec i s = .next t ∧
    t.value = s.value ∧ t.dst = s.dst ∧ t.cap = s.cap ∧ t.cfg = s.cfg ∧
    (s.dst = 0 ∨ s.cap = 0 → t.len = 0 ∧ t.status = 0x5 ∧ t.issued = [] ∧ t.mem = s.mem) ∧
    (s.dst ≠ 0 → s.cap ≠ 0 →
      ndig i.base.radix s.value.toNat + s.cfg.toNat / 2 > s.cap.toNat →
      t.len = 0 ∧ t.status = 0x3 ∧ t.issued = [] ∧ t.mem = s.mem) ∧
    (s.dst ≠ 0 → s.cap ≠ 0 →
      ndig i.base.radix s.value.toNat + s.cfg.toNat / 2 ≤ s.cap.toNat →
      t.len.toNat = ndig i.base.radix s.value.toNat ∧ t.status = 0x1 ∧
      t.issued =
        (List.range t.len.toNat).map (fun j =>
          (BitVec.ofNat 32 (s.dst.toNat + j),
            lut (BitVec.ofNat 4 (dig i.base.radix s.value.toNat (t.len.toNat - 1 - j)))
              (s.cfg.toNat % 2 == 1)))
        ++ (if s.cfg.toNat / 2 = 1 then [(BitVec.ofNat 32 (s.dst.toNat + t.len.toNat), 0x00)] else []) ∧
      t.mem = t.issued.foldl (fun m w => m.write w.1 w.2) s.mem)

/-- 42 R122: both commands, with room: the buffer holds the digits of the value in the command's base, most
significant first, and the terminator when asked. -/
def Obligations.BufferHoldsTheDigits : Prop :=
  ∀ (i : Instr) (s : State), Succeeds i.base s →
    ∃ t, exec i s = .next t ∧ t.status = 0x1 ∧ t.len.toNat = ndig i.base.radix s.value.toNat ∧
      (∀ j, j < t.len.toNat →
        t.mem.read (s.dst + BitVec.ofNat 32 j) =
          some (lut (BitVec.ofNat 4 (dig i.base.radix s.value.toNat (t.len.toNat - 1 - j))) s.upper)) ∧
      (s.term = true → t.mem.read (s.dst + BitVec.ofNat 32 t.len.toNat) = some 0x00)

/-- 43 R131: ENCHEX with room completes, and the buffer holds the nibbles of the value, most significant
first, and the terminator when asked. -/
def Obligations.EnchexWritesTheHexDigits : Prop :=
  ∀ s : State, Succeeds .hex s →
    ∃ t, exec .enchex s = .next t ∧ t.len.toNat = ndig 16 s.value.toNat ∧ t.status = 0x1 ∧
      (∀ j, j < ndig 16 s.value.toNat →
        t.mem.read (s.dst + BitVec.ofNat 32 j) =
          some (lut (s.value.extractLsb' (4 * (ndig 16 s.value.toNat - 1 - j)) 4) s.upper)) ∧
      (s.term = true →
        t.mem.read (s.dst + BitVec.ofNat 32 (ndig 16 s.value.toNat)) = some 0x00)

/-- 43 R132: ENCDEC with room completes, and the buffer holds the decimal digits, most significant
first, and the terminator when asked. -/
def Obligations.EncdecWritesTheDecimalDigits : Prop :=
  ∀ s : State, Succeeds .dec s →
    ∃ t, exec .encdec s = .next t ∧ t.len.toNat = ndig 10 s.value.toNat ∧ t.status = 0x1 ∧
      (∀ j, j < ndig 10 s.value.toNat →
        t.mem.read (s.dst + BitVec.ofNat 32 j) =
          some (BitVec.ofNat 8
            (0x30 + s.value.toNat / 10 ^ (ndig 10 s.value.toNat - 1 - j) % 10))) ∧
      (s.term = true →
        t.mem.read (s.dst + BitVec.ofNat 32 (ndig 10 s.value.toNat)) = some 0x00)

/-- 60 R153: Invalid Destination: the whole next state, for both commands; no other destination is refused so;
and the first byte a command writes is never at address 0. -/
def Obligations.BadDestinationFailsWithCode2 : Prop :=
  ∀ (i : Instr) (s : State),
    (s.dst = 0 ∨ s.cap = 0 → exec i s = .next { s with
      base := i.base, issued := [], len := 0, status := 0x5, phase := .idle, resp := some .wrote }) ∧
    ∃ t, exec i s = .next t ∧ (t.err = 2 ↔ s.dst = 0 ∨ s.cap = 0) ∧
      ∀ w, t.issued.head? = some w → w.1 ≠ 0

/-- 60 R152: Capacity-Exceeded: no byte is written and the failure is reported; with no terminator asked the
digits alone must fit. -/
def Obligations.TooSmallCapacityFailsWithCode1 : Prop :=
  ∀ (i : Instr) (s : State), s.dst ≠ 0 → s.cap ≠ 0 →
    digits i.base s + (if s.term then 1 else 0) > s.cap.toNat →
    ∃ t, exec i s = .next t ∧ t.len = 0 ∧ t.status = 0x3 ∧ t.issued = [] ∧ t.mem = s.mem ∧
      t.value = s.value ∧ t.dst = s.dst ∧ t.cap = s.cap ∧ t.cfg = s.cfg ∧ t.widx = s.widx ∧
      t.phase = .idle ∧ t.resp = some .wrote

/-- 60 R151, R155: one `CMD` write reports one outcome, in the order Illegal Command, Invalid Destination,
Capacity-Exceeded, success; what `STATUS` and `LEN` then hold. -/
def Obligations.FailurePriority : Prop :=
  ∀ (w : Word) (s : State), ∃ t, command w s = .next t ∧
    t.status.toNat = 2 * t.err.toNat + 1 ∧
    match decode w with
    | .reserved _ => t.err = 3 ∧ t.len = 0
    | .instr i =>
      if s.dst = 0 ∨ s.cap = 0 then t.err = 2 ∧ t.len = 0
      else if digits i.base s + s.termCount > s.cap.toNat then t.err = 1 ∧ t.len = 0
      else t.err = 0 ∧ t.len.toNat = digits i.base s

/-- 43 R136: the exact condition for success, and the sufficient bound of the source, with which the command
writes exactly its digits (and terminator). -/
def Obligations.SuccessExactlyWhenItFits : Prop :=
  ∀ (i : Instr) (s : State), ∃ t, exec i s = .next t ∧
    (t.status = 0x1 ↔ s.dst ≠ 0 ∧ s.cap.toNat ≥ digits i.base s + s.termCount) ∧
    (s.dst ≠ 0 → 11 ≤ s.cap.toNat →
      t.status = 0x1 ∧ t.len.toNat = digits i.base s ∧ t.issued = commandWrites i.base s)

/-- 43 R133: the value zero. -/
def Obligations.ZeroIsOneDigit : Prop :=
  ∀ (i : Instr) (s : State), s.value = 0 → s.dst ≠ 0 → 1 + s.termCount ≤ s.cap.toNat →
    ∃ t, exec i s = .next t ∧ t.len = 1 ∧ t.status = 0x1 ∧ t.mem.read s.dst = some 0x30 ∧
      (s.term = true → t.mem.read (s.dst + 1) = some 0x00)

/-- 43 R134: the greatest value: eight letters `f` of the configured case, or the ten characters
`4294967295`. -/
def Obligations.MaximumValueStrings : Prop :=
  ∀ s : State, s.value = 0xFFFFFFFF → s.dst ≠ 0 →
    (8 + s.termCount ≤ s.cap.toNat →
      ∃ t, exec .enchex s = .next t ∧ t.len = 8 ∧
        readBytes t.mem s.dst 8 = List.replicate 8 (some (if s.upper then 0x46 else 0x66))) ∧
    (10 + s.termCount ≤ s.cap.toNat →
      ∃ t, exec .encdec s = .next t ∧ t.len = 10 ∧
        readBytes t.mem s.dst 10 =
          [some 0x34, some 0x32, some 0x39, some 0x34, some 0x39,
           some 0x36, some 0x37, some 0x32, some 0x39, some 0x35])

/-- 43 R135: zero capacity fails for every value. -/
def Obligations.ZeroCapacityFails : Prop :=
  ∀ (i : Instr) (s : State), s.cap = 0 →
    ∃ t, exec i s = .next t ∧ t.len = 0 ∧ t.err = 2 ∧ t.issued = [] ∧ t.mem = s.mem

/-- 20 R57: the bounds law, for every command and all operands: every byte written is in the declared buffer,
at most `CAP` bytes are written, `LEN` is at most their number, and memory outside the buffer is unchanged. -/
def Obligations.NeverWritesOutsideTheBuffer : Prop :=
  ∀ (i : Instr) (s : State), ∃ t, exec i s = .next t ∧
    (∀ w ∈ t.issued, ∃ k, k < s.cap.toNat ∧ w.1.toNat = (s.dst.toNat + k) % 2 ^ 32) ∧
    t.issued.length ≤ s.cap.toNat ∧ t.len.toNat ≤ t.issued.length ∧
    ∀ a, ¬ InBuffer s a → t.mem.read a = s.mem.read a

/-- 93 U6: with a buffer that does not cross the top of the address space, the bytes written stand at the
addresses `DST` to `DST + CAP - 1`, with no wrap. -/
def Obligations.NoWrapMeansContiguous : Prop :=
  ∀ (i : Instr) (s : State), NoWrap s → ∃ t, exec i s = .next t ∧
    ∀ w ∈ t.issued, s.dst.toNat ≤ w.1.toNat ∧ w.1.toNat < s.dst.toNat + s.cap.toNat

/-- 20 R59, 42 R119: a successful command issues its writes at ascending offsets 0, 1, 2 and so on, each
once, modulo 2^32 (20 R58), at most 11 and at most `CAP` of them; any other command issues none. -/
def Obligations.WritesAscendEachOffsetOnce : Prop :=
  ∀ (i : Instr) (s : State), ∃ t, exec i s = .next t ∧
    (Succeeds i.base s →
      t.issued.length = digits i.base s + s.termCount ∧
      t.issued.length ≤ s.cap.toNat ∧ t.issued.length ≤ 11 ∧
      (∀ k, k < t.issued.length →
        (t.issued.map fun w => w.1.toNat)[k]? = some ((s.dst.toNat + k) % 2 ^ 32)) ∧
      (t.issued.map Prod.fst).Nodup) ∧
    (¬ Succeeds i.base s → t.issued = [])

/-- 42 R123: a `CMD` write that does not succeed writes no byte; and no failure is raised once `PHASE` has
reached `WRITE`. -/
def Obligations.FailureWritesNothing : Prop :=
  (∀ (w : Word) (s t : State), command w s = .next t → t.status ≠ 0x1 →
    t.issued = [] ∧ t.mem = s.mem ∧ t.len = 0) ∧
  ∀ s t : State, s.phase = .write ∨ s.phase = .termw → (∀ rest, s.inputs ≠ .rst :: rest) →
    step s = .next t → t.status = s.status ∨ t.status = 0x1

/-- 10 R29, 42 R121, 10 R34: what a command leaves unchanged. Its destinations are `LEN`, `STATUS`, the
internal registers and the buffer; the operand registers, the inputs and the free-value counter keep their
values; scratch entries above the digits are stale; and every byte of memory outside the stored offsets, all of
memory when the command does not succeed, reads as before. -/
def Obligations.CommandFrame : Prop :=
  ∀ (i : Instr) (s t : State), exec i s = .next t →
    t.value = s.value ∧ t.dst = s.dst ∧ t.cap = s.cap ∧ t.cfg = s.cfg ∧
    t.inputs = s.inputs ∧ t.freeCount = s.freeCount ∧
    (∀ j, digits i.base s ≤ j → readScratch t.scratch j = readScratch s.scratch j) ∧
    (Succeeds i.base s → ∀ a,
      (∀ k, k < digits i.base s + s.termCount → a ≠ s.bufferAddr k) → t.mem.read a = s.mem.read a) ∧
    (¬ Succeeds i.base s → ∀ a, t.mem.read a = s.mem.read a)

/-- 42 R120: the length after a success and after a failure. -/
def Obligations.LengthBounds : Prop :=
  ∀ (i : Instr) (s : State), ∃ t, exec i s = .next t ∧
    (t.status = 0x1 → 1 ≤ t.len.toNat ∧ t.len.toNat ≤ (if i = .enchex then 8 else 10) ∧
      t.issued.length = t.len.toNat + s.termCount) ∧
    (t.status ≠ 0x1 → t.len = 0 ∧ t.issued = []) ∧
    t.len.toNat ≤ t.issued.length ∧ t.len.toNat ≤ s.cap.toNat

/-- 60 R156: `LEN` = 0 after a command exactly when `ERR` is not 0. -/
def Obligations.ZeroLengthMeansFailure : Prop :=
  ∀ (w : Word) (s : State), ∃ t, command w s = .next t ∧ t.done = true ∧ (t.len = 0 ↔ t.err ≠ 0)

/-- 43 R138: a command's outcome depends on the command word, `VALUE`, `DST`, `CAP` and `CFG` alone; and two
commands that differ in their destination write the same bytes. -/
def Obligations.OutcomeDependsOnOperandsAlone : Prop :=
  ∀ (w : Word) (s s' : State), s.value = s'.value → s.cap = s'.cap → s.cfg = s'.cfg →
    ∃ t t', command w s = .next t ∧ command w s' = .next t' ∧
      (s.dst = s'.dst → t.len = t'.len ∧ t.status = t'.status ∧ t.issued = t'.issued) ∧
      (s.dst ≠ 0 → s'.dst ≠ 0 → t.len = t'.len ∧ t.status = t'.status ∧
        t.issued.map Prod.snd = t'.issued.map Prod.snd)

/-- 20 R65: running the same command again changes nothing. -/
def Obligations.CommandIsIdempotent : Prop :=
  ∀ (i : Instr) (s t : State), Memory.wf s.mem = true → exec i s = .next t → exec i t = .next t

/-- 40 R93: ENCDEC does not depend on `CFG.UPPER`. -/
def Obligations.EncdecIgnoresUpper : Prop :=
  ∀ s s' : State, s.value = s'.value → s.dst = s'.dst → s.cap = s'.cap → s.term = s'.term →
    ∃ t t', exec .encdec s = .next t ∧ exec .encdec s' = .next t' ∧
      t.len = t'.len ∧ t.status = t'.status ∧ t.issued = t'.issued

/-- 43 R137: reading the `LEN` bytes at `DST` back as a number in the command's base gives `VALUE`. -/
def Obligations.WrittenStringParsesBack : Prop :=
  ∀ (i : Instr) (s : State), Succeeds i.base s → ∃ t, exec i s = .next t ∧
    parse i.base.radix (readBytes t.mem s.dst t.len.toNat) = some s.value.toNat

/-! ### The micro-steps

`undisturbed n` says that the next `n` steps of a command in progress are micro-steps: on clock edges, which each
use up a `tick`, without inputs, or with a host transaction waiting; `afterMicroStep` is what is left of the inputs. -/

/-- 41 R100: the launch micro-step, for every command word: the whole next state. -/
def Obligations.LaunchMicroStep : Prop :=
  ∀ (s : State) (rest : List Input) (w : Word), s.phase = .idle → s.inputs = .present w :: rest →
    step s = .next (
      if w ≠ 0x00000001 ∧ w ≠ 0x00000002 then
        { s with inputs := rest, issued := [], len := 0, status := 0x7, resp := some .wrote }
      else if s.dst = 0 ∨ s.cap = 0 then
        { s with
          inputs := rest, issued := [], base := if w = 0x00000002 then .dec else .hex
          len := 0, status := 0x5, resp := some .wrote }
      else
        { s with
          inputs := rest, issued := [], base := if w = 0x00000002 then .dec else .hex
          acc := s.value, cnt := 0, phase := .extract, resp := none })

/-- 41 R101: the hexadecimal extraction step: the whole next state, in every state with a free scratch entry. -/
def Obligations.HexExtractionStep : Prop :=
  ∀ s : State, s.phase = .extract → s.base = .hex → undisturbed 1 s.inputs = true →
    ∀ h : s.cnt.toNat < 10,
    step s = .next { s with
      inputs := afterMicroStep s.inputs
      resp := none
      scratch := s.scratch.set s.cnt.toNat (lut (BitVec.ofNat 4 (s.acc.toNat % 16)) s.upper) h
      acc := BitVec.ofNat 32 (s.acc.toNat / 16)
      cnt := BitVec.ofNat 4 (s.cnt.toNat + 1)
      phase := if s.acc.toNat / 16 ≠ 0 then .extract else .check }

/-- 41 R102: the decimal extraction step: the whole next state, in every state with a free scratch entry; the
character is 0x30 + d. -/
def Obligations.DecimalExtractionStep : Prop :=
  ∀ s : State, s.phase = .extract → s.base = .dec → undisturbed 1 s.inputs = true →
    ∀ h : s.cnt.toNat < 10,
    step s = .next { s with
      inputs := afterMicroStep s.inputs
      resp := none
      scratch := s.scratch.set s.cnt.toNat (BitVec.ofNat 8 (0x30 + s.acc.toNat % 10)) h
      acc := BitVec.ofNat 32 (s.acc.toNat / 10)
      cnt := BitVec.ofNat 4 (s.cnt.toNat + 1)
      phase := if s.acc.toNat / 10 ≠ 0 then .extract else .check }

/-- 42 R115: the capacity check: the whole next state. -/
def Obligations.CapacityCheckStep : Prop :=
  ∀ s : State, s.phase = .check → undisturbed 1 s.inputs = true →
    step s = .next (
      if s.cnt.toNat + (if s.term then 1 else 0) > s.cap.toNat then
        { s with
          inputs := afterMicroStep s.inputs
          len := 0, status := 0x3, phase := .idle, resp := some .wrote }
      else
        { s with
          inputs := afterMicroStep s.inputs
          widx := 0, phase := .write, resp := none })

/-- 42 R116, R118: the write micro-step: one byte, from the top of the scratch array down, and on to the next
digit, the terminator or the finish. -/
def Obligations.WriteMicroStep : Prop :=
  ∀ s : State, s.phase = .write → undisturbed 1 s.inputs = true → s.widx.toNat < s.cnt.toNat →
    s.cnt.toNat ≤ 10 →
    ∃ (x : Byte) (t : State), s.scratch[s.cnt.toNat - 1 - s.widx.toNat]? = some x ∧
      step s = .next t ∧
      t.mem = s.mem.write (s.dst + BitVec.ofNat 32 s.widx.toNat) x ∧
      t.issued = s.issued ++ [(s.dst + BitVec.ofNat 32 s.widx.toNat, x)] ∧
      t.widx.toNat = s.widx.toNat + 1 ∧
      t = { s with
        inputs := afterMicroStep s.inputs
        mem := t.mem, issued := t.issued, widx := t.widx
        phase :=
          if s.widx.toNat + 1 < s.cnt.toNat then .write
          else if s.term then .termw else .idle
        len := if s.widx.toNat + 1 = s.cnt.toNat ∧ s.term = false then s.cnt else s.len
        status := if s.widx.toNat + 1 = s.cnt.toNat ∧ s.term = false then 0x1 else s.status
        resp := if s.widx.toNat + 1 = s.cnt.toNat ∧ s.term = false then some .wrote else none }

/-- 42 R117, R118: the terminator micro-step and the finish: the whole next state. -/
def Obligations.TerminatorMicroStep : Prop :=
  ∀ s : State, s.phase = .termw → undisturbed 1 s.inputs = true →
    step s = .next { s with
      inputs := afterMicroStep s.inputs
      mem := s.mem.write (s.dst + BitVec.ofNat 32 s.cnt.toNat) 0x00
      issued := s.issued ++ [(s.dst + BitVec.ofNat 32 s.cnt.toNat, 0x00)]
      len := s.cnt, status := 0x1, phase := .idle, resp := some .wrote }

/-- 41 R105: after `k` extraction steps of a command, for any `k` up to the digit count: what `ACC`, `CNT` and
`SCRATCH` hold, and that memory is untouched. -/
def Obligations.ExtractionLoopInvariant : Prop :=
  ∀ (i : Instr) (s : State) (rest : List Input) (k : Nat), s.phase = .idle → undisturbed k rest = true →
    s.dst ≠ 0 → s.cap ≠ 0 → k ≤ digits i.base s →
    ∃ t, Host.Core.run Sys2Proof.core (k + 1) { s with inputs := .present (encode i) :: rest } = .next t ∧
      t.acc.toNat = s.value.toNat / i.base.radix ^ k ∧ t.cnt.toNat = k ∧
      (∀ j, j < k → readScratch t.scratch j =
        some (lut (BitVec.ofNat 4 (dig i.base.radix s.value.toNat j)) s.upper)) ∧
      t.phase = (if k < digits i.base s then .extract else .check) ∧
      (k = digits i.base s → t.acc = 0) ∧
      t.mem = s.mem ∧ t.value = s.value ∧ t.base = i.base ∧ t.inputs = afterMicroSteps k rest

/-- The two levels agree (43 R139). The micro-steps of a command, with no reset and no other agent's write among
them, on clock edges or without inputs, end in the very state that the command level gives: the same bytes written
in the same order, the same memory, the same `LEN` and `STATUS`, which is R139, and the same internal registers,
which R139 does not say and log 12 supplies. -/
def Obligations.TheTwoLevelsAgree : Prop :=
  ∀ (w : Word) (s : State) (rest : List Input), s.phase = .idle →
    undisturbed (microSteps w s - 1) rest = true →
    Host.Core.run Sys2Proof.core (microSteps w s) { s with inputs := .present w :: rest } =
      command w { s with inputs := afterMicroSteps (microSteps w s - 1) rest, resp := none }

/-- 70 R184: the micro-step counts, by outcome, and the least and the greatest of them, which some commands
take; before that many the command has not ended. -/
def Obligations.MicroStepCounts : Prop :=
  (∃ s, microSteps 0x00000002 s = 23) ∧ (∃ s, microSteps 0x00000001 s = 19) ∧
  (∃ s, microSteps 0x00000001 s = 1) ∧
  ∀ (w : Word) (s : State) (rest : List Input), s.phase = .idle →
    undisturbed (microSteps w s - 1) rest = true →
    (∀ k, 0 < k → k < microSteps w s → ∃ t,
      Host.Core.run Sys2Proof.core k { s with inputs := .present w :: rest } = .next t ∧
        t.phase ≠ .idle ∧ t.resp = none) ∧
    (∃ t, Host.Core.run Sys2Proof.core (microSteps w s) { s with inputs := .present w :: rest } = .next t ∧
      t.phase = .idle ∧ t.resp = some .wrote) ∧
    1 ≤ microSteps w s ∧ microSteps w s ≤ 23 ∧ (decode w = .instr .enchex → microSteps w s ≤ 19)

/-- 70 R171: a reset during a command. In every good state it abandons the command, drops the held `CMD` write
and leaves the bytes written so far: none before `WRITE`, the first `WIDX` of the command's writes after. And in a
run: a reset after `k` further micro-steps of a command that would have succeeded leaves a proper prefix of its
writes, and nothing else of it. -/
def Obligations.ResetLeavesAPrefix : Prop :=
  (∀ (s : State) (rest : List Input), Good s → s.phase ≠ .idle → s.inputs = .rst :: rest →
    ∃ t, step s = .next t ∧ t.mem = s.mem ∧ t.issued = s.issued ∧ t.phase = .idle ∧ t.len = 0 ∧
      t.status = 0 ∧ t.resp = none ∧ t.inputs = rest ∧
      (s.phase = .extract ∨ s.phase = .check → t.issued = []) ∧
      (s.phase = .write ∨ s.phase = .termw →
        t.issued = (commandWrites s.base s).take s.widx.toNat ∧
        s.widx.toNat < (commandWrites s.base s).length)) ∧
  ∀ (i : Instr) (s : State) (rest : List Input) (k : Nat), s.phase = .idle → Succeeds i.base s →
    k + 1 < 2 * digits i.base s + 2 + s.termCount →
    ∃ t, Host.Core.run Sys2Proof.core (k + 2)
        { s with inputs := .present (encode i) :: (List.replicate k .tick ++ .rst :: rest) } = .next t ∧
      t.issued = (commandWrites i.base s).take (k - (digits i.base s + 1)) ∧
      t.mem = t.issued.foldl (fun m x => m.write x.1 x.2) s.mem ∧
      t.value = 0 ∧ t.dst = 0 ∧ t.cap = 0 ∧ t.cfg = 0 ∧ t.len = 0 ∧ t.status = 0 ∧
      t.phase = .idle ∧ t.resp = none ∧ t.inputs = rest

/-! ### The invariant -/

/-- 10 R38, R39: the reset state is good. -/
def Obligations.ResetStateIsGood : Prop := Good State.reset

/-- 10 R39, 41 R105, 42 R119: from every good state the machine goes on, and to a good state: it never faults,
whatever comes from outside. -/
def Obligations.EveryStepKeepsTheInvariant : Prop :=
  ∀ s : State, Good s → ∃ t, step s = .next t ∧ Good t

/-- In a good state with a command in progress: `CNT` is at most 8 or 10 by the base, below that while an
extraction step is still to store at it, and at least 1 after extraction (41 R109); the digit bytes written so far
are at most `CNT`, and `WIDX`, which counts them (10 R32), is at most `CNT`. That `WIDX` itself is claimed for
`WRITE` and `TERMW` only, against the words "during a command" of 10 R39, is this model's reading (log 18): it is
stale before the check sets it (42 R115). -/
def Obligations.CountersStayInRange : Prop :=
  ∀ s : State, Good s → s.phase ≠ .idle →
    s.cnt.toNat ≤ (if s.base = .hex then 8 else 10) ∧
    (s.phase = .extract → s.cnt.toNat < (if s.base = .hex then 8 else 10)) ∧
    (s.phase ≠ .extract → 1 ≤ s.cnt.toNat) ∧
    s.issued.length ≤ s.cnt.toNat ∧
    (s.phase = .write ∨ s.phase = .termw →
      s.widx.toNat ≤ s.cnt.toNat ∧ s.issued.length = s.widx.toNat)

/-- 20 R57, 42 R119: at every moment of a command the bytes issued so far are in the declared buffer and at
offsets below 11. -/
def Obligations.BytesIssuedSoFarAreInTheBuffer : Prop :=
  ∀ s : State, Good s → s.phase ≠ .idle →
    s.issued.length ≤ s.cap.toNat ∧
    ∀ (k : Nat) (x : Addr × Byte), s.issued[k]? = some x → k ≤ 10 ∧ k < s.cap.toNat ∧ x.1 = s.bufferAddr k

/-- 70 R185: a command in progress ends after at most 22 more micro-steps, if no reset and no other agent's write
comes among them: on clock edges, with no inputs, or with a host transaction waiting. -/
def Obligations.EveryCommandEnds : Prop :=
  ∀ s : State, Good s → s.phase ≠ .idle → undisturbed 22 s.inputs = true →
    ∃ k t, k ≤ 22 ∧ Host.Core.run Sys2Proof.core k s = .next t ∧ t.phase = .idle ∧
      t.resp = some .wrote ∧ t.inputs = afterMicroSteps k s.inputs

/-! ### Memory -/

/-- A location holds the last byte written to it, a write changes no other location, and keeps the canonical form;
equal memories are equal data. That every location of 20 R50 a holds what was written to it is this model's choice
(log 3): 20 R64 leaves to the platform which addresses are storage. -/
def Obligations.MemoryReadsTheLastWrite : Prop :=
  (∀ (m : Memory) (a c : Addr) (x : Byte),
    (m.write a x).read c = if c = a then some x else m.read c) ∧
  (∀ (m : Memory) (a : Addr) (x : Byte), Memory.wf m = true → Memory.wf (m.write a x) = true) ∧
  (∀ m m' : Memory, Memory.wf m = true → Memory.wf m' = true → (∀ a, m.read a = m'.read a) → m = m')

/-! ### The idle block -/

/-- 10 R36: in `IDLE` there is no micro-step and the block waits: with no input, or on a clock edge with nothing from
outside, nothing changes but that the edge is used up and the last response forgotten (log 10). -/
def Obligations.IdleBlockWaits : Prop :=
  ∀ (s : State) (rest : List Input), s.phase = .idle →
    (s.inputs = [] ∧ rest = [] ∨ s.inputs = .tick :: rest) →
    step s = .next { s with inputs := rest, resp := none }
end

