-- ==== Sys2Proof/Laws/Decode.lean ====
section
/-! SUPPORT. The fields of a command word as numbers (30_encoding.md R75), for proofs about the decoder. -/

namespace Sys2Proof

/-- The field `op` is the word modulo 16. -/
theorem opField_toNat (w : Word) : (opField w).toNat = w.toNat % 16 := by simp [opField]

theorem opField_eq_iff (w : Word) (k : BitVec 4) : opField w = k ↔ w.toNat % 16 = k.toNat := by
  rw [← opField_toNat, BitVec.toNat_inj]

/-- The field `zero` is the word divided by 16. -/
theorem zeroField_toNat (w : Word) : (zeroField w).toNat = w.toNat / 16 := by
  have := w.isLt
  simp [zeroField, Nat.shiftRight_eq_div_pow]
  omega

theorem zeroField_ne_zero_iff (w : Word) : zeroField w ≠ 0 ↔ w.toNat / 16 ≠ 0 := by
  rw [← zeroField_toNat]
  simp [← BitVec.toNat_inj]

end Sys2Proof
end

