-- ==== Sys2Proof/Laws/Digits.lean ====
section
/-! SUPPORT. Digit counts and digits (41_accumulator.md R104 to R109). -/

namespace Sys2Proof.Machine

@[simp] theorem radix_hex : Base.hex.radix = 16 := rfl
@[simp] theorem radix_dec : Base.dec.radix = 10 := rfl

theorem radix_ge_two (b : Base) : 2 ≤ b.radix := by cases b <;> decide

theorem radix_le_sixteen (b : Base) : b.radix ≤ 16 := by cases b <;> decide

theorem radix_pos (b : Base) : 0 < b.radix := by cases b <;> decide

/-- Ten digits are enough for a 32-bit value in either base. -/
theorem lt_radix_pow_depth (b : Base) {v : Nat} (hv : v < 2 ^ 32) :
    v < b.radix ^ Config.scratchDepth := by
  cases b <;> simp only [radix_hex, radix_dec, Config.scratchDepth] <;> omega

/-- The search of `ndig` finds the first power above the value. -/
theorem find_first_power {b v : Nat} (hv : v ≠ 0) {N : Nat} (hN : v < b ^ N) :
    ∃ n, (List.range (N + 1)).find? (fun n => decide (v < b ^ n)) = some n ∧ 0 < n ∧ v < b ^ n ∧
      ∀ m, m < n → b ^ m ≤ v := by
  cases hf : (List.range (N + 1)).find? (fun n => decide (v < b ^ n)) with
  | none =>
    have := List.find?_eq_none.1 hf N (by simp)
    simp [hN] at this
  | some n =>
    have hlt : v < b ^ n := by simpa using List.find?_some hf
    have hmin : ∀ m, m < n → b ^ m ≤ v := by
      intro m hm
      have := (List.find?_range_eq_some.1 hf).2.2 m hm
      simpa using this
    refine ⟨n, rfl, ?_, hlt, hmin⟩
    rcases Nat.eq_zero_or_pos n with h0 | h0
    · subst h0
      simp at hlt
      exact absurd hlt hv
    · exact h0

/-- `ndig` as 41 R104 says it, for a 32-bit value: at least 1, enough for the value, and no smaller count
is enough unless the value is 0. -/
theorem ndig_spec (b : Base) {v : Nat} (hv : v < 2 ^ 32) :
    0 < ndig b.radix v ∧ v < b.radix ^ ndig b.radix v ∧
      ∀ m, 0 < m → m < ndig b.radix v → b.radix ^ m ≤ v := by
  unfold ndig
  split
  next h0 =>
    subst h0
    refine ⟨by decide, Nat.pow_pos (radix_pos b), fun m h1 h2 => by omega⟩
  next h0 =>
    obtain ⟨n, hf, hpos, hlt, hmin⟩ := find_first_power h0 (lt_radix_pow_depth b hv)
    rw [hf]
    exact ⟨hpos, hlt, fun m _ hm => hmin m hm⟩

theorem ndig_pos (b : Base) {v : Nat} (hv : v < 2 ^ 32) : 0 < ndig b.radix v := (ndig_spec b hv).1

theorem lt_pow_ndig (b : Base) {v : Nat} (hv : v < 2 ^ 32) : v < b.radix ^ ndig b.radix v :=
  (ndig_spec b hv).2.1

/-- Any positive count that is enough is at least `ndig`. -/
theorem ndig_le_of_lt_pow (b : Base) {v n : Nat} (hv : v < 2 ^ 32) (hn : 0 < n)
    (h : v < b.radix ^ n) : ndig b.radix v ≤ n := by
  refine Nat.le_of_not_lt fun hlt => ?_
  have := (ndig_spec b hv).2.2 n hn hlt
  omega

/-- The greatest digit counts: 8 hexadecimal, 10 decimal (41 R109). -/
theorem ndig_hex_le {v : Nat} (hv : v < 2 ^ 32) : ndig 16 v ≤ 8 :=
  ndig_le_of_lt_pow .hex hv (by decide) (by simpa using hv)

theorem ndig_le_ten (b : Base) {v : Nat} (hv : v < 2 ^ 32) : ndig b.radix v ≤ 10 :=
  ndig_le_of_lt_pow b hv (by decide) (lt_radix_pow_depth b hv)

/-- Below the digit count there is still something to extract: `v div b^m` is 0 only for the value 0 before
the first step (41 R103). -/
theorem div_pow_ne_zero_of_lt_ndig (b : Base) {v m : Nat} (hv : v < 2 ^ 32) (h0 : 0 < m)
    (hm : m < ndig b.radix v) : v / b.radix ^ m ≠ 0 := by
  have hle := (ndig_spec b hv).2.2 m h0 hm
  have := Nat.div_pos hle (Nat.pow_pos (radix_pos b))
  omega

/-- After `k` extraction steps something is left exactly when `k` is below the digit count (41 R105). -/
theorem div_pow_eq_zero_iff (b : Base) {v k : Nat} (hv : v < 2 ^ 32) (hk : 0 < k) :
    v / b.radix ^ k = 0 ↔ ndig b.radix v ≤ k := by
  constructor
  · intro h
    refine ndig_le_of_lt_pow b hv hk ?_
    rcases Nat.div_eq_zero_iff.1 h with h | h
    · exact absurd h (Nat.ne_of_gt (Nat.pow_pos (radix_pos b)))
    · exact h
  · intro h
    refine Nat.div_eq_of_lt (Nat.lt_of_lt_of_le (lt_pow_ndig b hv) ?_)
    exact Nat.pow_le_pow_right (radix_pos b) h

theorem dig_lt (b : Base) (v i : Nat) : dig b.radix v i < b.radix := Nat.mod_lt _ (radix_pos b)

theorem dig_lt_sixteen (b : Base) (v i : Nat) : dig b.radix v i < 16 :=
  Nat.lt_of_lt_of_le (dig_lt b v i) (radix_le_sixteen b)

/-- Dropping the lowest digit and putting it back (41 R104). -/
theorem div_pow_succ (b v i : Nat) : v / b ^ (i + 1) = v / b ^ i / b := by
  rw [Nat.pow_succ, Nat.div_div_eq_div_mul]

theorem div_pow_eq (b v i : Nat) : v / b ^ i = v / b ^ (i + 1) * b + dig b v i := by
  rw [div_pow_succ, dig, Nat.mul_comm]
  exact (Nat.div_add_mod _ _).symm

end Sys2Proof.Machine
end

