-- ==== Sys2Proof/Laws/Memory.lean ====
section
/-! SUPPORT. The destination address space: a read sees the last write, a write leaves every other location
alone, and every operation keeps the canonical form, in which equal memories are equal data. -/

namespace Sys2Proof.Machine

/-- The canonical form, as a statement about pairs of neighbours. -/
theorem Memory.wf_cons_cons (a a' : Nat) (b b' : Byte) (m : Memory) :
    Memory.wf ((a, b) :: (a', b') :: m) = true ↔ a < a' ∧ Memory.wf ((a', b') :: m) = true := by
  simp [Memory.wf]

theorem Memory.wf_tail {c : Host.Cell} {m : Memory} (h : Memory.wf (c :: m) = true) :
    Memory.wf m = true := by
  cases m with
  | nil => rfl
  | cons d m => exact ((Memory.wf_cons_cons _ _ _ _ _).1 h).2

/-- In canonical form the first address is below every later one. -/
theorem Memory.wf_head_lt {k : Nat} {b : Byte} {m : Memory} (h : Memory.wf ((k, b) :: m) = true) :
    ∀ c ∈ m, k < c.1 := by
  induction m generalizing k b with
  | nil => simp
  | cons d m ih =>
    obtain ⟨hlt, htl⟩ := (Memory.wf_cons_cons _ _ _ _ _).1 h
    intro c hc
    rcases List.mem_cons.1 hc with rfl | hc
    · exact hlt
    · exact Nat.lt_trans hlt (ih htl c hc)

theorem Memory.wf_bound {k : Nat} {b : Byte} {m : Memory} (h : Memory.wf ((k, b) :: m) = true) :
    k < 2 ^ 32 := by
  induction m generalizing k b with
  | nil => simpa [Memory.wf] using h
  | cons d m ih =>
    obtain ⟨hlt, htl⟩ := (Memory.wf_cons_cons _ _ _ _ _).1 h
    exact Nat.lt_trans hlt (ih htl)

/-- A lower address in front of a memory in canonical form. -/
theorem Memory.wf_cons {k : Nat} {b : Byte} {m : Memory} (hk : k < 2 ^ 32)
    (hm : Memory.wf m = true) (hlt : ∀ c ∈ m, k < c.1) : Memory.wf ((k, b) :: m) = true := by
  cases m with
  | nil => simpa [Memory.wf] using hk
  | cons d m => exact (Memory.wf_cons_cons _ _ _ _ _).2 ⟨hlt d (by simp), hm⟩

theorem Memory.mem_insert {m : Memory} {k : Nat} {b : Byte} {c : Host.Cell}
    (h : c ∈ m.insert k b) : c = (k, b) ∨ c ∈ m := by
  induction m with
  | nil => simpa [Memory.insert] using h
  | cons d m ih =>
    obtain ⟨k', b'⟩ := d
    unfold Memory.insert at h
    split at h
    · simpa using h
    · split at h
      · rcases List.mem_cons.1 h with h | h
        · exact .inl h
        · exact .inr (List.mem_cons_of_mem _ h)
      · rcases List.mem_cons.1 h with h | h
        · exact .inr (h ▸ by simp)
        · exact (ih h).imp_right (List.mem_cons_of_mem _)

/-- Storing keeps the canonical form. -/
theorem Memory.insert_wf {m : Memory} (k : Nat) (b : Byte) (hk : k < 2 ^ 32)
    (hm : Memory.wf m = true) : Memory.wf (m.insert k b) = true := by
  induction m with
  | nil => simpa [Memory.insert, Memory.wf] using hk
  | cons d m ih =>
    obtain ⟨k', b'⟩ := d
    have hhead := Memory.wf_head_lt hm
    have htail := Memory.wf_tail hm
    unfold Memory.insert
    split
    next hlt =>
      refine Memory.wf_cons hk hm fun c hc => ?_
      rcases List.mem_cons.1 hc with rfl | hc
      · exact hlt
      · exact Nat.lt_trans hlt (hhead c hc)
    next hge =>
      split
      next heq => exact Memory.wf_cons hk htail fun c hc => heq ▸ hhead c hc
      next hne =>
        refine Memory.wf_cons (Memory.wf_bound hm) (ih htail) fun c hc => ?_
        rcases Memory.mem_insert hc with rfl | hc
        · show k' < k
          omega
        · exact hhead c hc

/-- A byte write keeps the canonical form. -/
theorem Memory.write_wf {m : Memory} (a : Addr) (b : Byte) (hm : Memory.wf m = true) :
    Memory.wf (m.write a b) = true :=
  Memory.insert_wf _ _ a.isLt hm

/-- A run of byte writes keeps the canonical form. -/
theorem Memory.writeAll_wf {m : Memory} (ws : List (Addr × Byte)) (hm : Memory.wf m = true) :
    Memory.wf (m.writeAll ws) = true := by
  induction ws generalizing m with
  | nil => exact hm
  | cons w ws ih => exact ih (Memory.write_wf w.1 w.2 hm)

theorem Memory.read_insert (m : Memory) (k : Nat) (b : Byte) (a : Addr) :
    (m.insert k b).read a = if k = a.toNat then some b else m.read a := by
  induction m with
  | nil => simp [Memory.insert, Memory.read]
  | cons d m ih =>
    obtain ⟨k', b'⟩ := d
    unfold Memory.insert
    split
    next hlt =>
      by_cases h : k = a.toNat <;> simp [Memory.read, h]
    next hge =>
      split
      next heq =>
        by_cases h : k = a.toNat <;> simp [Memory.read, h, heq ▸ h]
      next hne =>
        simp only [Memory.read, ih]
        by_cases h : k = a.toNat <;> by_cases h' : k' = a.toNat <;> simp_all

/-- What a location holds after one byte write. -/
theorem Memory.read_write (m : Memory) (a : Addr) (b : Byte) (x : Addr) :
    (m.write a b).read x = if a = x then some b else m.read x := by
  rw [Memory.write, Memory.read_insert]
  simp [BitVec.toNat_inj]

/-- A location that no write of the run goes to keeps what it held. -/
theorem Memory.read_writeAll_of_not_mem {m : Memory} {ws : List (Addr × Byte)} {x : Addr}
    (h : ∀ w ∈ ws, w.1 ≠ x) : (m.writeAll ws).read x = m.read x := by
  induction ws generalizing m with
  | nil => rfl
  | cons w ws ih =>
    have hw : (m.write w.1 w.2).read x = m.read x := by
      rw [Memory.read_write, if_neg (h w (by simp))]
    exact (ih fun v hv => h v (List.mem_cons_of_mem _ hv)).trans hw

/-- A location that the run writes once holds the byte written. -/
theorem Memory.read_writeAll_of_mem {m : Memory} {ws : List (Addr × Byte)} {w : Addr × Byte}
    (hw : w ∈ ws) (hnd : (ws.map Prod.fst).Nodup) : (m.writeAll ws).read w.1 = some w.2 := by
  induction ws generalizing m with
  | nil => cases hw
  | cons v ws ih =>
    obtain ⟨hv, hnd⟩ := List.nodup_cons.1 (by simpa using hnd : (v.1 :: ws.map Prod.fst).Nodup)
    rcases List.mem_cons.1 hw with rfl | hw
    · have := Memory.read_writeAll_of_not_mem (m := m.write w.1 w.2) (ws := ws) (x := w.1)
        fun u hu he => hv (he ▸ List.mem_map_of_mem hu)
      exact this.trans (by rw [Memory.read_write, if_pos rfl])
    · exact ih (m := m.write v.1 v.2) hw hnd

/-- A memory in canonical form reads as its entries say. -/
theorem Memory.read_eq_some {m : Memory} (hm : Memory.wf m = true) (a : Addr) (b : Byte) :
    m.read a = some b ↔ (a.toNat, b) ∈ m := by
  induction m with
  | nil => simp [Memory.read]
  | cons d m ih =>
    obtain ⟨k, c⟩ := d
    simp only [Memory.read]
    by_cases h : k = a.toNat
    · subst h
      have hno : (a.toNat, b) ∉ m := fun hmem => Nat.lt_irrefl _ (Memory.wf_head_lt hm _ hmem)
      simp [hno, eq_comm]
    · rw [if_neg h, ih (Memory.wf_tail hm)]
      simp [Ne.symm h]

end Sys2Proof.Machine
end

