-- ==== Sys2Proof/Laws/State.lean ====
section
/-! SUPPORT. What each named update of State does to each field: one lemma per field per update, so that no
later proof unfolds a record update. -/

namespace Sys2Proof.Machine

variable (s : State)

/-! ### `State.memWrite` -/

@[simp] theorem State.memWrite_value (a : Addr) (b : Byte) : (s.memWrite a b).value = s.value := rfl
@[simp] theorem State.memWrite_dst (a : Addr) (b : Byte) : (s.memWrite a b).dst = s.dst := rfl
@[simp] theorem State.memWrite_cap (a : Addr) (b : Byte) : (s.memWrite a b).cap = s.cap := rfl
@[simp] theorem State.memWrite_cfg (a : Addr) (b : Byte) : (s.memWrite a b).cfg = s.cfg := rfl
@[simp] theorem State.memWrite_len (a : Addr) (b : Byte) : (s.memWrite a b).len = s.len := rfl
@[simp] theorem State.memWrite_status (a : Addr) (b : Byte) : (s.memWrite a b).status = s.status := rfl
@[simp] theorem State.memWrite_acc (a : Addr) (b : Byte) : (s.memWrite a b).acc = s.acc := rfl
@[simp] theorem State.memWrite_cnt (a : Addr) (b : Byte) : (s.memWrite a b).cnt = s.cnt := rfl
@[simp] theorem State.memWrite_widx (a : Addr) (b : Byte) : (s.memWrite a b).widx = s.widx := rfl
@[simp] theorem State.memWrite_base (a : Addr) (b : Byte) : (s.memWrite a b).base = s.base := rfl
@[simp] theorem State.memWrite_scratch (a : Addr) (b : Byte) : (s.memWrite a b).scratch = s.scratch := rfl
@[simp] theorem State.memWrite_phase (a : Addr) (b : Byte) : (s.memWrite a b).phase = s.phase := rfl
@[simp] theorem State.memWrite_mem (a : Addr) (b : Byte) : (s.memWrite a b).mem = s.mem.write a b := rfl
@[simp] theorem State.memWrite_issued (a : Addr) (b : Byte) : (s.memWrite a b).issued = s.issued ++ [(a, b)] := rfl
@[simp] theorem State.memWrite_resp (a : Addr) (b : Byte) : (s.memWrite a b).resp = s.resp := rfl
@[simp] theorem State.memWrite_inputs (a : Addr) (b : Byte) : (s.memWrite a b).inputs = s.inputs := rfl
@[simp] theorem State.memWrite_freeCount (a : Addr) (b : Byte) : (s.memWrite a b).freeCount = s.freeCount := rfl

/-! ### `State.agentWrite` -/

@[simp] theorem State.agentWrite_value (a : Addr) (b : Byte) : (s.agentWrite a b).value = s.value := rfl
@[simp] theorem State.agentWrite_dst (a : Addr) (b : Byte) : (s.agentWrite a b).dst = s.dst := rfl
@[simp] theorem State.agentWrite_cap (a : Addr) (b : Byte) : (s.agentWrite a b).cap = s.cap := rfl
@[simp] theorem State.agentWrite_cfg (a : Addr) (b : Byte) : (s.agentWrite a b).cfg = s.cfg := rfl
@[simp] theorem State.agentWrite_len (a : Addr) (b : Byte) : (s.agentWrite a b).len = s.len := rfl
@[simp] theorem State.agentWrite_status (a : Addr) (b : Byte) : (s.agentWrite a b).status = s.status := rfl
@[simp] theorem State.agentWrite_acc (a : Addr) (b : Byte) : (s.agentWrite a b).acc = s.acc := rfl
@[simp] theorem State.agentWrite_cnt (a : Addr) (b : Byte) : (s.agentWrite a b).cnt = s.cnt := rfl
@[simp] theorem State.agentWrite_widx (a : Addr) (b : Byte) : (s.agentWrite a b).widx = s.widx := rfl
@[simp] theorem State.agentWrite_base (a : Addr) (b : Byte) : (s.agentWrite a b).base = s.base := rfl
@[simp] theorem State.agentWrite_scratch (a : Addr) (b : Byte) : (s.agentWrite a b).scratch = s.scratch := rfl
@[simp] theorem State.agentWrite_phase (a : Addr) (b : Byte) : (s.agentWrite a b).phase = s.phase := rfl
@[simp] theorem State.agentWrite_mem (a : Addr) (b : Byte) : (s.agentWrite a b).mem = s.mem.write a b := rfl
@[simp] theorem State.agentWrite_issued (a : Addr) (b : Byte) : (s.agentWrite a b).issued = s.issued := rfl
@[simp] theorem State.agentWrite_resp (a : Addr) (b : Byte) : (s.agentWrite a b).resp = s.resp := rfl
@[simp] theorem State.agentWrite_inputs (a : Addr) (b : Byte) : (s.agentWrite a b).inputs = s.inputs := rfl
@[simp] theorem State.agentWrite_freeCount (a : Addr) (b : Byte) : (s.agentWrite a b).freeCount = s.freeCount := rfl

/-! ### `State.raiseFail` -/

@[simp] theorem State.raiseFail_value (c : FailCode) : (s.raiseFail c).value = s.value := rfl
@[simp] theorem State.raiseFail_dst (c : FailCode) : (s.raiseFail c).dst = s.dst := rfl
@[simp] theorem State.raiseFail_cap (c : FailCode) : (s.raiseFail c).cap = s.cap := rfl
@[simp] theorem State.raiseFail_cfg (c : FailCode) : (s.raiseFail c).cfg = s.cfg := rfl
@[simp] theorem State.raiseFail_len (c : FailCode) : (s.raiseFail c).len = 0 := rfl
@[simp] theorem State.raiseFail_status (c : FailCode) : (s.raiseFail c).status = failStatus c := rfl
@[simp] theorem State.raiseFail_acc (c : FailCode) : (s.raiseFail c).acc = s.acc := rfl
@[simp] theorem State.raiseFail_cnt (c : FailCode) : (s.raiseFail c).cnt = s.cnt := rfl
@[simp] theorem State.raiseFail_widx (c : FailCode) : (s.raiseFail c).widx = s.widx := rfl
@[simp] theorem State.raiseFail_base (c : FailCode) : (s.raiseFail c).base = s.base := rfl
@[simp] theorem State.raiseFail_scratch (c : FailCode) : (s.raiseFail c).scratch = s.scratch := rfl
@[simp] theorem State.raiseFail_phase (c : FailCode) : (s.raiseFail c).phase = .idle := rfl
@[simp] theorem State.raiseFail_mem (c : FailCode) : (s.raiseFail c).mem = s.mem := rfl
@[simp] theorem State.raiseFail_issued (c : FailCode) : (s.raiseFail c).issued = s.issued := rfl
@[simp] theorem State.raiseFail_resp (c : FailCode) : (s.raiseFail c).resp = some .wrote := rfl
@[simp] theorem State.raiseFail_inputs (c : FailCode) : (s.raiseFail c).inputs = s.inputs := rfl
@[simp] theorem State.raiseFail_freeCount (c : FailCode) : (s.raiseFail c).freeCount = s.freeCount := rfl

/-! ### `State.finish` -/

@[simp] theorem State.finish_value (n : BitVec 4) : (s.finish n).value = s.value := rfl
@[simp] theorem State.finish_dst (n : BitVec 4) : (s.finish n).dst = s.dst := rfl
@[simp] theorem State.finish_cap (n : BitVec 4) : (s.finish n).cap = s.cap := rfl
@[simp] theorem State.finish_cfg (n : BitVec 4) : (s.finish n).cfg = s.cfg := rfl
@[simp] theorem State.finish_len (n : BitVec 4) : (s.finish n).len = n := rfl
@[simp] theorem State.finish_status (n : BitVec 4) : (s.finish n).status = successStatus := rfl
@[simp] theorem State.finish_acc (n : BitVec 4) : (s.finish n).acc = s.acc := rfl
@[simp] theorem State.finish_cnt (n : BitVec 4) : (s.finish n).cnt = s.cnt := rfl
@[simp] theorem State.finish_widx (n : BitVec 4) : (s.finish n).widx = s.widx := rfl
@[simp] theorem State.finish_base (n : BitVec 4) : (s.finish n).base = s.base := rfl
@[simp] theorem State.finish_scratch (n : BitVec 4) : (s.finish n).scratch = s.scratch := rfl
@[simp] theorem State.finish_phase (n : BitVec 4) : (s.finish n).phase = .idle := rfl
@[simp] theorem State.finish_mem (n : BitVec 4) : (s.finish n).mem = s.mem := rfl
@[simp] theorem State.finish_issued (n : BitVec 4) : (s.finish n).issued = s.issued := rfl
@[simp] theorem State.finish_resp (n : BitVec 4) : (s.finish n).resp = some .wrote := rfl
@[simp] theorem State.finish_inputs (n : BitVec 4) : (s.finish n).inputs = s.inputs := rfl
@[simp] theorem State.finish_freeCount (n : BitVec 4) : (s.finish n).freeCount = s.freeCount := rfl

/-! ### `State.beginCommand` -/

@[simp] theorem State.beginCommand_value (b : Base) : (s.beginCommand b).value = s.value := rfl
@[simp] theorem State.beginCommand_dst (b : Base) : (s.beginCommand b).dst = s.dst := rfl
@[simp] theorem State.beginCommand_cap (b : Base) : (s.beginCommand b).cap = s.cap := rfl
@[simp] theorem State.beginCommand_cfg (b : Base) : (s.beginCommand b).cfg = s.cfg := rfl
@[simp] theorem State.beginCommand_len (b : Base) : (s.beginCommand b).len = s.len := rfl
@[simp] theorem State.beginCommand_status (b : Base) : (s.beginCommand b).status = s.status := rfl
@[simp] theorem State.beginCommand_acc (b : Base) : (s.beginCommand b).acc = s.acc := rfl
@[simp] theorem State.beginCommand_cnt (b : Base) : (s.beginCommand b).cnt = s.cnt := rfl
@[simp] theorem State.beginCommand_widx (b : Base) : (s.beginCommand b).widx = s.widx := rfl
@[simp] theorem State.beginCommand_base (b : Base) : (s.beginCommand b).base = b := rfl
@[simp] theorem State.beginCommand_scratch (b : Base) : (s.beginCommand b).scratch = s.scratch := rfl
@[simp] theorem State.beginCommand_phase (b : Base) : (s.beginCommand b).phase = s.phase := rfl
@[simp] theorem State.beginCommand_mem (b : Base) : (s.beginCommand b).mem = s.mem := rfl
@[simp] theorem State.beginCommand_issued (b : Base) : (s.beginCommand b).issued = [] := rfl
@[simp] theorem State.beginCommand_resp (b : Base) : (s.beginCommand b).resp = s.resp := rfl
@[simp] theorem State.beginCommand_inputs (b : Base) : (s.beginCommand b).inputs = s.inputs := rfl
@[simp] theorem State.beginCommand_freeCount (b : Base) : (s.beginCommand b).freeCount = s.freeCount := rfl

/-! ### `State.extracted` -/

@[simp] theorem State.extracted_value (b : Base) : (s.extracted b).value = s.value := rfl
@[simp] theorem State.extracted_dst (b : Base) : (s.extracted b).dst = s.dst := rfl
@[simp] theorem State.extracted_cap (b : Base) : (s.extracted b).cap = s.cap := rfl
@[simp] theorem State.extracted_cfg (b : Base) : (s.extracted b).cfg = s.cfg := rfl
@[simp] theorem State.extracted_len (b : Base) : (s.extracted b).len = s.len := rfl
@[simp] theorem State.extracted_status (b : Base) : (s.extracted b).status = s.status := rfl
@[simp] theorem State.extracted_acc (b : Base) : (s.extracted b).acc = 0 := rfl
@[simp] theorem State.extracted_cnt (b : Base) : (s.extracted b).cnt = BitVec.ofNat 4 (ndig b.radix s.value.toNat) := rfl
@[simp] theorem State.extracted_widx (b : Base) : (s.extracted b).widx = s.widx := rfl
@[simp] theorem State.extracted_base (b : Base) : (s.extracted b).base = s.base := rfl
@[simp] theorem State.extracted_scratch (b : Base) : (s.extracted b).scratch = fillScratch b.radix s.value.toNat s.upper s.scratch (ndig b.radix s.value.toNat) := rfl
@[simp] theorem State.extracted_phase (b : Base) : (s.extracted b).phase = s.phase := rfl
@[simp] theorem State.extracted_mem (b : Base) : (s.extracted b).mem = s.mem := rfl
@[simp] theorem State.extracted_issued (b : Base) : (s.extracted b).issued = s.issued := rfl
@[simp] theorem State.extracted_resp (b : Base) : (s.extracted b).resp = s.resp := rfl
@[simp] theorem State.extracted_inputs (b : Base) : (s.extracted b).inputs = s.inputs := rfl
@[simp] theorem State.extracted_freeCount (b : Base) : (s.extracted b).freeCount = s.freeCount := rfl

/-! ### `State.take` -/

@[simp] theorem State.take_value (r : List Input) : (s.take r).value = s.value := rfl
@[simp] theorem State.take_dst (r : List Input) : (s.take r).dst = s.dst := rfl
@[simp] theorem State.take_cap (r : List Input) : (s.take r).cap = s.cap := rfl
@[simp] theorem State.take_cfg (r : List Input) : (s.take r).cfg = s.cfg := rfl
@[simp] theorem State.take_len (r : List Input) : (s.take r).len = s.len := rfl
@[simp] theorem State.take_status (r : List Input) : (s.take r).status = s.status := rfl
@[simp] theorem State.take_acc (r : List Input) : (s.take r).acc = s.acc := rfl
@[simp] theorem State.take_cnt (r : List Input) : (s.take r).cnt = s.cnt := rfl
@[simp] theorem State.take_widx (r : List Input) : (s.take r).widx = s.widx := rfl
@[simp] theorem State.take_base (r : List Input) : (s.take r).base = s.base := rfl
@[simp] theorem State.take_scratch (r : List Input) : (s.take r).scratch = s.scratch := rfl
@[simp] theorem State.take_phase (r : List Input) : (s.take r).phase = s.phase := rfl
@[simp] theorem State.take_mem (r : List Input) : (s.take r).mem = s.mem := rfl
@[simp] theorem State.take_issued (r : List Input) : (s.take r).issued = s.issued := rfl
@[simp] theorem State.take_resp (r : List Input) : (s.take r).resp = none := rfl
@[simp] theorem State.take_inputs (r : List Input) : (s.take r).inputs = r := rfl
@[simp] theorem State.take_freeCount (r : List Input) : (s.take r).freeCount = s.freeCount := rfl

/-! ### Operands seen through the updates (30_encoding.md R79) -/

@[simp] theorem State.memWrite_upper (a : Addr) (b : Byte) : (s.memWrite a b).upper = s.upper := rfl
@[simp] theorem State.memWrite_term (a : Addr) (b : Byte) : (s.memWrite a b).term = s.term := rfl
@[simp] theorem State.memWrite_termCount (a : Addr) (b : Byte) : (s.memWrite a b).termCount = s.termCount := rfl
@[simp] theorem State.memWrite_badDestination (a : Addr) (b : Byte) : (s.memWrite a b).badDestination = s.badDestination := rfl
@[simp] theorem State.memWrite_bufferAddr (a : Addr) (b : Byte) (k : Nat) : (s.memWrite a b).bufferAddr k = s.bufferAddr k := rfl
@[simp] theorem State.agentWrite_upper (a : Addr) (b : Byte) : (s.agentWrite a b).upper = s.upper := rfl
@[simp] theorem State.agentWrite_term (a : Addr) (b : Byte) : (s.agentWrite a b).term = s.term := rfl
@[simp] theorem State.agentWrite_termCount (a : Addr) (b : Byte) : (s.agentWrite a b).termCount = s.termCount := rfl
@[simp] theorem State.agentWrite_badDestination (a : Addr) (b : Byte) : (s.agentWrite a b).badDestination = s.badDestination := rfl
@[simp] theorem State.agentWrite_bufferAddr (a : Addr) (b : Byte) (k : Nat) : (s.agentWrite a b).bufferAddr k = s.bufferAddr k := rfl
@[simp] theorem State.raiseFail_upper (c : FailCode) : (s.raiseFail c).upper = s.upper := rfl
@[simp] theorem State.raiseFail_term (c : FailCode) : (s.raiseFail c).term = s.term := rfl
@[simp] theorem State.raiseFail_termCount (c : FailCode) : (s.raiseFail c).termCount = s.termCount := rfl
@[simp] theorem State.raiseFail_badDestination (c : FailCode) : (s.raiseFail c).badDestination = s.badDestination := rfl
@[simp] theorem State.raiseFail_bufferAddr (c : FailCode) (k : Nat) : (s.raiseFail c).bufferAddr k = s.bufferAddr k := rfl
@[simp] theorem State.finish_upper (n : BitVec 4) : (s.finish n).upper = s.upper := rfl
@[simp] theorem State.finish_term (n : BitVec 4) : (s.finish n).term = s.term := rfl
@[simp] theorem State.finish_termCount (n : BitVec 4) : (s.finish n).termCount = s.termCount := rfl
@[simp] theorem State.finish_badDestination (n : BitVec 4) : (s.finish n).badDestination = s.badDestination := rfl
@[simp] theorem State.finish_bufferAddr (n : BitVec 4) (k : Nat) : (s.finish n).bufferAddr k = s.bufferAddr k := rfl
@[simp] theorem State.beginCommand_upper (b : Base) : (s.beginCommand b).upper = s.upper := rfl
@[simp] theorem State.beginCommand_term (b : Base) : (s.beginCommand b).term = s.term := rfl
@[simp] theorem State.beginCommand_termCount (b : Base) : (s.beginCommand b).termCount = s.termCount := rfl
@[simp] theorem State.beginCommand_badDestination (b : Base) : (s.beginCommand b).badDestination = s.badDestination := rfl
@[simp] theorem State.beginCommand_bufferAddr (b : Base) (k : Nat) : (s.beginCommand b).bufferAddr k = s.bufferAddr k := rfl
@[simp] theorem State.extracted_upper (b : Base) : (s.extracted b).upper = s.upper := rfl
@[simp] theorem State.extracted_term (b : Base) : (s.extracted b).term = s.term := rfl
@[simp] theorem State.extracted_termCount (b : Base) : (s.extracted b).termCount = s.termCount := rfl
@[simp] theorem State.extracted_badDestination (b : Base) : (s.extracted b).badDestination = s.badDestination := rfl
@[simp] theorem State.extracted_bufferAddr (b : Base) (k : Nat) : (s.extracted b).bufferAddr k = s.bufferAddr k := rfl
@[simp] theorem State.take_upper (r : List Input) : (s.take r).upper = s.upper := rfl
@[simp] theorem State.take_term (r : List Input) : (s.take r).term = s.term := rfl
@[simp] theorem State.take_termCount (r : List Input) : (s.take r).termCount = s.termCount := rfl
@[simp] theorem State.take_badDestination (r : List Input) : (s.take r).badDestination = s.badDestination := rfl
@[simp] theorem State.take_bufferAddr (r : List Input) (k : Nat) : (s.take r).bufferAddr k = s.bufferAddr k := rfl

/-! ### `State.resetEvent`: the host-visible registers (70_reset_and_hazards.md R170) -/

@[simp] theorem State.resetEvent_value : s.resetEvent.value = 0 := rfl
@[simp] theorem State.resetEvent_dst : s.resetEvent.dst = 0 := rfl
@[simp] theorem State.resetEvent_cap : s.resetEvent.cap = 0 := rfl
@[simp] theorem State.resetEvent_cfg : s.resetEvent.cfg = 0 := rfl
@[simp] theorem State.resetEvent_len : s.resetEvent.len = 0 := rfl
@[simp] theorem State.resetEvent_status : s.resetEvent.status = 0 := rfl
@[simp] theorem State.resetEvent_phase : s.resetEvent.phase = .idle := rfl
@[simp] theorem State.resetEvent_mem : s.resetEvent.mem = s.mem := rfl
@[simp] theorem State.resetEvent_issued : s.resetEvent.issued = s.issued := rfl
@[simp] theorem State.resetEvent_resp : s.resetEvent.resp = none := rfl
@[simp] theorem State.resetEvent_inputs : s.resetEvent.inputs = s.inputs := rfl
@[simp] theorem State.resetEvent_freeCount : s.resetEvent.freeCount = s.freeCount + 1 := rfl

/-! ### `State.memWrites` -/

@[simp] theorem State.memWrites_value (ws : List (Addr × Byte)) : (s.memWrites ws).value = s.value := rfl
@[simp] theorem State.memWrites_dst (ws : List (Addr × Byte)) : (s.memWrites ws).dst = s.dst := rfl
@[simp] theorem State.memWrites_cap (ws : List (Addr × Byte)) : (s.memWrites ws).cap = s.cap := rfl
@[simp] theorem State.memWrites_cfg (ws : List (Addr × Byte)) : (s.memWrites ws).cfg = s.cfg := rfl
@[simp] theorem State.memWrites_len (ws : List (Addr × Byte)) : (s.memWrites ws).len = s.len := rfl
@[simp] theorem State.memWrites_status (ws : List (Addr × Byte)) : (s.memWrites ws).status = s.status := rfl
@[simp] theorem State.memWrites_acc (ws : List (Addr × Byte)) : (s.memWrites ws).acc = s.acc := rfl
@[simp] theorem State.memWrites_cnt (ws : List (Addr × Byte)) : (s.memWrites ws).cnt = s.cnt := rfl
@[simp] theorem State.memWrites_widx (ws : List (Addr × Byte)) : (s.memWrites ws).widx = s.widx := rfl
@[simp] theorem State.memWrites_base (ws : List (Addr × Byte)) : (s.memWrites ws).base = s.base := rfl
@[simp] theorem State.memWrites_scratch (ws : List (Addr × Byte)) : (s.memWrites ws).scratch = s.scratch := rfl
@[simp] theorem State.memWrites_phase (ws : List (Addr × Byte)) : (s.memWrites ws).phase = s.phase := rfl
@[simp] theorem State.memWrites_mem (ws : List (Addr × Byte)) : (s.memWrites ws).mem = s.mem.writeAll ws := rfl
@[simp] theorem State.memWrites_issued (ws : List (Addr × Byte)) : (s.memWrites ws).issued = s.issued ++ ws := rfl
@[simp] theorem State.memWrites_resp (ws : List (Addr × Byte)) : (s.memWrites ws).resp = s.resp := rfl
@[simp] theorem State.memWrites_inputs (ws : List (Addr × Byte)) : (s.memWrites ws).inputs = s.inputs := rfl
@[simp] theorem State.memWrites_freeCount (ws : List (Addr × Byte)) : (s.memWrites ws).freeCount = s.freeCount := rfl

@[simp] theorem State.memWrites_nil : s.memWrites [] = s := by
  simp [State.memWrites, Memory.writeAll]

/-- A run of writes is its first write and then the others (20 R60 a). -/
theorem State.memWrites_cons (w : Addr × Byte) (ws : List (Addr × Byte)) :
    s.memWrites (w :: ws) = (s.memWrite w.1 w.2).memWrites ws := by
  simp [State.memWrites, State.memWrite, Memory.writeAll]

/-! ### `State.copiedOut` -/

@[simp] theorem State.copiedOut_value (b : Base) : (s.copiedOut b).value = s.value := rfl
@[simp] theorem State.copiedOut_dst (b : Base) : (s.copiedOut b).dst = s.dst := rfl
@[simp] theorem State.copiedOut_cap (b : Base) : (s.copiedOut b).cap = s.cap := rfl
@[simp] theorem State.copiedOut_cfg (b : Base) : (s.copiedOut b).cfg = s.cfg := rfl
@[simp] theorem State.copiedOut_len (b : Base) : (s.copiedOut b).len = s.len := rfl
@[simp] theorem State.copiedOut_status (b : Base) : (s.copiedOut b).status = s.status := rfl
@[simp] theorem State.copiedOut_acc (b : Base) : (s.copiedOut b).acc = s.acc := rfl
@[simp] theorem State.copiedOut_cnt (b : Base) : (s.copiedOut b).cnt = s.cnt := rfl
@[simp] theorem State.copiedOut_widx (b : Base) : (s.copiedOut b).widx = BitVec.ofNat 4 (ndig b.radix s.value.toNat) := rfl
@[simp] theorem State.copiedOut_base (b : Base) : (s.copiedOut b).base = s.base := rfl
@[simp] theorem State.copiedOut_scratch (b : Base) : (s.copiedOut b).scratch = s.scratch := rfl
@[simp] theorem State.copiedOut_phase (b : Base) : (s.copiedOut b).phase = s.phase := rfl
@[simp] theorem State.copiedOut_mem (b : Base) : (s.copiedOut b).mem = s.mem.writeAll (commandWrites b s) := rfl
@[simp] theorem State.copiedOut_issued (b : Base) : (s.copiedOut b).issued = s.issued ++ commandWrites b s := rfl
@[simp] theorem State.copiedOut_resp (b : Base) : (s.copiedOut b).resp = s.resp := rfl
@[simp] theorem State.copiedOut_inputs (b : Base) : (s.copiedOut b).inputs = s.inputs := rfl
@[simp] theorem State.copiedOut_freeCount (b : Base) : (s.copiedOut b).freeCount = s.freeCount := rfl

/-! ### `STATUS` and the writes seen through the updates (10_state.md R26, 60_exceptions.md R150) -/

@[simp] theorem State.raiseFail_done (c : FailCode) : (s.raiseFail c).done = true := by
  show (failStatus c).getLsbD 0 = true
  cases c <;> decide

@[simp] theorem State.raiseFail_err (c : FailCode) : (s.raiseFail c).err = c.code := by
  show (failStatus c).extractLsb' 1 2 = c.code
  cases c <;> decide

@[simp] theorem State.finish_done (n : BitVec 4) : (s.finish n).done = true := by
  show successStatus.getLsbD 0 = true
  decide

@[simp] theorem State.finish_err (n : BitVec 4) : (s.finish n).err = 0 := by
  show successStatus.extractLsb' 1 2 = 0
  decide

theorem FailCode.code_ne_zero (c : FailCode) : c.code ≠ 0 := by cases c <;> decide

theorem failStatus_ne_success (c : FailCode) : failStatus c ≠ successStatus := by cases c <;> decide

@[simp] theorem commandWrites_beginCommand (b c : Base) :
    commandWrites c (s.beginCommand b) = commandWrites c s := rfl

@[simp] theorem commandWrites_extracted (b c : Base) :
    commandWrites c (s.extracted b) = commandWrites c s := rfl

@[simp] theorem commandWrites_take (r : List Input) (c : Base) :
    commandWrites c (s.take r) = commandWrites c s := rfl

end Sys2Proof.Machine
end

