-- ==== Sys2Proof/Laws/Encode.lean ====
section
/-! SUPPORT. The command level: what `encodeCommand` can do, said once in three cases, and the writes of a
successful command (43_commands.md R130, 42_buffer_write.md R119, R122). -/

namespace Sys2Proof.Machine

open Safety

/-! ### The buffer's addresses -/

/-- Different offsets below 2^32 are different locations (20 R58). -/
theorem bufferAddr_inj {s : State} {j k : Nat} (hj : j < 2 ^ 32) (hk : k < 2 ^ 32)
    (h : s.bufferAddr j = s.bufferAddr k) : j = k := by
  have h' : BitVec.ofNat 32 j = BitVec.ofNat 32 k := by
    have := congrArg (fun x => x - s.dst) h
    simpa [State.bufferAddr, BitVec.add_comm s.dst] using this
  have := congrArg BitVec.toNat h'
  rwa [BitVec.toNat_ofNat, BitVec.toNat_ofNat, Nat.mod_eq_of_lt hj, Nat.mod_eq_of_lt hk] at this

theorem termCount_le_one (s : State) : s.termCount ≤ 1 := Bool.toNat_le _

theorem termCount_eq (s : State) : s.termCount = if s.term then 1 else 0 := by
  unfold State.termCount
  cases s.term <;> rfl

theorem badDestination_eq_false {s : State} :
    s.badDestination = false ↔ s.dst ≠ Config.nullAddr ∧ s.cap ≠ 0 := by
  simp [State.badDestination]

theorem badDestination_eq_true {s : State} :
    s.badDestination = true ↔ s.dst = Config.nullAddr ∨ s.cap = 0 := by
  simp [State.badDestination]

theorem digits_pos (b : Base) (s : State) : 0 < digits b s := ndig_pos b s.value.isLt

theorem digits_le_ten (b : Base) (s : State) : digits b s ≤ 10 := ndig_le_ten b s.value.isLt

/-- A command that has room has a destination that passes the launch test. -/
theorem succeeds_badDestination {b : Base} {s : State} (h : Succeeds b s) :
    s.badDestination = false := by
  refine badDestination_eq_false.2 ⟨h.1, fun h0 => ?_⟩
  have h1 := h.2
  have h2 := digits_pos b s
  rw [h0] at h1
  simp at h1
  omega

/-! ### The writes of a command -/

/-- The byte written at offset `k`: a digit, then the terminator (42 R122). -/
theorem commandWrites_eq_map (b : Base) (s : State) :
    commandWrites b s = (List.range (digits b s + s.termCount)).map fun k =>
      (s.bufferAddr k,
        if k < digits b s then digitChar b.radix s.value.toNat (digits b s - 1 - k) s.upper
        else Config.termByte) := by
  unfold commandWrites
  have hdig : (List.range (digits b s)).map (fun j =>
        (s.bufferAddr j, digitChar b.radix s.value.toNat (digits b s - 1 - j) s.upper)) =
      (List.range (digits b s)).map fun k => (s.bufferAddr k,
        if k < digits b s then digitChar b.radix s.value.toNat (digits b s - 1 - k) s.upper
        else Config.termByte) :=
    List.map_congr_left fun k hk => by rw [if_pos (List.mem_range.1 hk)]
  cases hterm : s.term
  · rw [termCount_eq, hterm]
    simpa using hdig
  · rw [termCount_eq, hterm]
    simpa [List.range_succ] using hdig

/-- A command writes `n + CFG.TERM` bytes (42 R119). -/
theorem commandWrites_length (b : Base) (s : State) :
    (commandWrites b s).length = digits b s + s.termCount := by
  simp [commandWrites_eq_map]

/-- The write at offset `k` (42 R119, R122). -/
theorem commandWrites_getElem? (b : Base) (s : State) (k : Nat) :
    (commandWrites b s)[k]? = if k < digits b s + s.termCount then
      some (s.bufferAddr k,
        if k < digits b s then digitChar b.radix s.value.toNat (digits b s - 1 - k) s.upper
        else Config.termByte) else none := by
  rw [commandWrites_eq_map, List.getElem?_map]
  split
  next h => simp [List.getElem?_range h]
  next h => simp [List.getElem?_eq_none (l := List.range _) (by simpa using h)]

/-- Ascending order, each offset once (20 R59). -/
theorem commandWrites_addresses (b : Base) (s : State) :
    (commandWrites b s).map Prod.fst =
      (List.range (digits b s + s.termCount)).map s.bufferAddr := by
  simp [commandWrites_eq_map, Function.comp_def]

theorem commandWrites_nodup (b : Base) (s : State) :
    ((commandWrites b s).map Prod.fst).Nodup := by
  rw [commandWrites_addresses]
  have h1 := digits_le_ten b s
  have h2 := termCount_le_one s
  refine List.pairwise_map.2 (List.pairwise_lt_range.imp_of_mem ?_)
  intro j k hj hk hlt he
  have hj' := List.mem_range.1 hj
  have hk' := List.mem_range.1 hk
  exact Nat.ne_of_lt hlt (bufferAddr_inj (by omega) (by omega) he)

/-- Every write of a command is at an offset below `n + CFG.TERM` (42 R119). -/
theorem mem_commandWrites {b : Base} {s : State} {w : Addr × Byte} (h : w ∈ commandWrites b s) :
    ∃ k, k < digits b s + s.termCount ∧ w.1 = s.bufferAddr k := by
  have := List.mem_map_of_mem (f := Prod.fst) h
  rw [commandWrites_addresses] at this
  obtain ⟨k, hk, he⟩ := List.mem_map.1 this
  exact ⟨k, List.mem_range.1 hk, he.symm⟩

/-- The writes depend on `VALUE`, `DST` and `CFG` alone (43 R138). -/
theorem commandWrites_congr {b : Base} {s t : State} (hv : s.value = t.value) (hd : s.dst = t.dst)
    (hc : s.cfg = t.cfg) : commandWrites b s = commandWrites b t := by
  simp [commandWrites, State.upper, State.term, State.bufferAddr, hv, hd, hc]

/-- What memory holds at offset `k` after a command's writes (42 R122). -/
theorem read_commandWrites (b : Base) (s : State) (m : Memory) {k : Nat}
    (hk : k < digits b s + s.termCount) :
    (m.writeAll (commandWrites b s)).read (s.bufferAddr k) =
      some (if k < digits b s then digitChar b.radix s.value.toNat (digits b s - 1 - k) s.upper
        else Config.termByte) := by
  have hget := commandWrites_getElem? b s k
  rw [if_pos hk] at hget
  exact Memory.read_writeAll_of_mem (List.mem_of_getElem? hget) (commandWrites_nodup b s)

/-- What memory holds elsewhere: what it held (42 R121). -/
theorem read_commandWrites_other (b : Base) (s : State) (m : Memory) {a : Addr}
    (ha : ∀ k, k < digits b s + s.termCount → a ≠ s.bufferAddr k) :
    (m.writeAll (commandWrites b s)).read a = m.read a :=
  Memory.read_writeAll_of_not_mem fun _ hw he => by
    obtain ⟨k, hk, hka⟩ := mem_commandWrites hw
    exact ha k hk (he.symm.trans hka)

/-! ### `encodeCommand`, in three cases -/

/-- What a command can do (43 R130): refuse the destination, refuse for want of room, or write. -/
theorem encodeCommand_cases (b : Base) (s : State) :
    (s.badDestination = true ∧
      encodeCommand b s = (s.beginCommand b).raiseFail .invalidDestination) ∨
    (s.badDestination = false ∧ s.cap.toNat < digits b s + s.termCount ∧
      encodeCommand b s = ((s.beginCommand b).extracted b).raiseFail .capacityExceeded) ∨
    (s.badDestination = false ∧ digits b s + s.termCount ≤ s.cap.toNat ∧
      encodeCommand b s =
        (((s.beginCommand b).extracted b).copiedOut b).finish (BitVec.ofNat 4 (digits b s))) := by
  unfold encodeCommand
  cases s.badDestination
  · by_cases h : digits b s + s.termCount ≤ s.cap.toNat
    · exact .inr (.inr ⟨rfl, h, by simp [Nat.not_lt.2 h]⟩)
    · exact .inr (.inl ⟨rfl, Nat.not_le.1 h, by simp [Nat.not_le.1 h]⟩)
  · exact .inl ⟨rfl, rfl⟩

/-- Both commands are `encodeCommand` of their base (43 R131, R132). -/
theorem exec_eq (i : Instr) (s : State) : exec i s = .next (encodeCommand i.base s) := by
  cases i <;> rfl

/-- The commands that succeed (43 R136). -/
theorem encodeCommand_success {b : Base} {s : State} (h : Succeeds b s) :
    encodeCommand b s =
      (((s.beginCommand b).extracted b).copiedOut b).finish (BitVec.ofNat 4 (digits b s)) := by
  have hb := succeeds_badDestination h
  rcases encodeCommand_cases b s with ⟨h1, -⟩ | ⟨-, h1, -⟩ | ⟨-, -, h1⟩
  · rw [hb] at h1
    cases h1
  · exact absurd h.2 (Nat.not_le.2 h1)
  · exact h1

/-- A digit count as a 4-bit number (10 R31). -/
theorem digits_toNat (b : Base) (s : State) : (BitVec.ofNat 4 (digits b s)).toNat = digits b s := by
  have := digits_le_ten b s
  simp only [BitVec.toNat_ofNat]
  omega

/-- No command changes the operand registers, the inputs or the free-value counter (10 R29). -/
theorem encodeCommand_keeps (b : Base) (s : State) :
    (encodeCommand b s).value = s.value ∧ (encodeCommand b s).dst = s.dst ∧
      (encodeCommand b s).cap = s.cap ∧ (encodeCommand b s).cfg = s.cfg ∧
      (encodeCommand b s).inputs = s.inputs ∧ (encodeCommand b s).freeCount = s.freeCount := by
  rcases encodeCommand_cases b s with ⟨-, h⟩ | ⟨-, -, h⟩ | ⟨-, -, h⟩ <;> simp [h]

/-- Every command ends with the host port free and the `CMD` write completed (30 R74). -/
theorem encodeCommand_ends (b : Base) (s : State) :
    (encodeCommand b s).phase = .idle ∧ (encodeCommand b s).resp = some .wrote ∧
      (encodeCommand b s).base = b := by
  rcases encodeCommand_cases b s with ⟨-, h⟩ | ⟨-, -, h⟩ | ⟨-, -, h⟩ <;> simp [h]

/-- What a command leaves in memory, at the port and in the result registers (43 R130): everything of a
success, or nothing and the failure. -/
theorem encodeCommand_outcome (b : Base) (s : State) :
    (Succeeds b s ∧ (encodeCommand b s).issued = commandWrites b s ∧
      (encodeCommand b s).mem = s.mem.writeAll (commandWrites b s) ∧
      (encodeCommand b s).len.toNat = digits b s ∧ (encodeCommand b s).status = successStatus ∧
      (encodeCommand b s).err = 0) ∨
    (¬ Succeeds b s ∧ (encodeCommand b s).issued = [] ∧ (encodeCommand b s).mem = s.mem ∧
      (encodeCommand b s).len = 0 ∧ (encodeCommand b s).status ≠ successStatus ∧
      (encodeCommand b s).err ≠ 0) := by
  by_cases hs : Succeeds b s
  · refine .inl ⟨hs, ?_⟩
    rw [encodeCommand_success hs]
    exact ⟨by simp, by simp, by simpa using digits_toNat b s, rfl, by simp⟩
  · refine .inr ⟨hs, ?_⟩
    rcases encodeCommand_cases b s with ⟨-, h⟩ | ⟨-, -, h⟩ | ⟨hb, hn, -⟩
    · rw [h]
      exact ⟨rfl, rfl, rfl, failStatus_ne_success _, by
        rw [State.raiseFail_err]
        exact FailCode.code_ne_zero _⟩
    · rw [h]
      exact ⟨rfl, rfl, rfl, failStatus_ne_success _, by
        rw [State.raiseFail_err]
        exact FailCode.code_ne_zero _⟩
    · exact absurd ⟨(badDestination_eq_false.1 hb).1, hn⟩ hs

/-! ### Scratch contents after extraction (41 R105) -/

theorem fillScratch_getElem? (b v : Nat) (u : Bool) (sc : Vector Byte Config.scratchDepth) (n i : Nat) :
    (fillScratch b v u sc n)[i]? =
      if i < n ∧ i < Config.scratchDepth then some (digitChar b v i u) else sc[i]? := by
  induction n with
  | zero => simp [fillScratch]
  | succ n ih =>
    rw [fillScratch, Vector.getElem?_setIfInBounds, ih]
    by_cases h1 : n = i
    · subst h1
      by_cases h2 : n < Config.scratchDepth <;> simp [h2]
    · have h3 : (i < n + 1 ∧ i < Config.scratchDepth) ↔ (i < n ∧ i < Config.scratchDepth) := by omega
      rw [if_neg h1]
      simp only [h3]

end Sys2Proof.Machine
end

