-- ==== Sys2Proof/Laws/PerInstr.lean ====
section
/-! SUPPORT. The statements made once per constructor of Instr: its syntax and its encoding. -/

namespace Sys2Proof.Laws.CommandWord

/-- A command's word is a well-formed command word with field `zero` = 0 and field `op` its code
(30 R75, R76), and the command itself is well formed. -/
def Statement (i : Instr) : Prop :=
  i.wellFormed = true ∧ commandWordWellFormed (encode i) = true ∧
    zeroField (encode i) = 0 ∧ opField (encode i) = opOf i

theorem enchex : Statement .enchex := by unfold Statement; decide

theorem encdec : Statement .encdec := by unfold Statement; decide

end Sys2Proof.Laws.CommandWord
end

