-- ==== Sys2Proof/Laws/Sequencer.lean ====
section
/-! SUPPORT. The micro-step level: what each micro-step does, in numbers (41_accumulator.md R100 to R103,
42_buffer_write.md R115 to R118), and when a step of the machine is a micro-step (30_encoding.md R74). -/

namespace Sys2Proof.Machine

open Safety

/-! ### When a step is a micro-step -/

/-- An undisturbed run splits into its first step and the rest. -/
theorem undisturbed_succ {n : Nat} {inputs : List Input} (h : undisturbed (n + 1) inputs = true) :
    undisturbed 1 inputs = true ∧ undisturbed n (afterMicroStep inputs) = true := by
  cases inputs with
  | nil => exact ⟨rfl, by cases n <;> rfl⟩
  | cons x rest =>
    cases x with
    | tick => exact ⟨rfl, h⟩
    | txn _ => exact ⟨rfl, by cases n <;> rfl⟩
    | present _ => exact ⟨rfl, by cases n <;> rfl⟩
    | rst => cases h
    | agent _ _ => cases h

/-- A longer undisturbed run holds a shorter one. -/
theorem undisturbed_mono {m n : Nat} {inputs : List Input} (h : undisturbed n inputs = true)
    (hmn : m ≤ n) : undisturbed m inputs = true := by
  induction m generalizing n inputs with
  | zero => cases inputs <;> rfl
  | succ m ih =>
    obtain ⟨k, rfl⟩ : ∃ k, n = k + 1 := ⟨n - 1, by omega⟩
    cases inputs with
    | nil => rfl
    | cons x rest =>
      cases x with
      | tick => exact ih (n := k) h (by omega)
      | txn _ => rfl
      | present _ => rfl
      | rst => cases h
      | agent _ _ => cases h

/-- The inputs after one more micro-step. -/
theorem afterMicroSteps_succ (n : Nat) (inputs : List Input) :
    afterMicroSteps (n + 1) inputs = afterMicroStep (afterMicroSteps n inputs) := by
  induction n generalizing inputs with
  | zero => rfl
  | succ n ih => exact ih (afterMicroStep inputs)

/-- After the first `m` micro-steps of an undisturbed run the rest is undisturbed. -/
theorem undisturbed_afterMicroSteps {m n : Nat} {inputs : List Input}
    (h : undisturbed (m + n) inputs = true) : undisturbed n (afterMicroSteps m inputs) = true := by
  induction m generalizing inputs with
  | zero => rwa [Nat.zero_add] at h
  | succ m ih => exact ih (undisturbed_succ (by rwa [Nat.succ_add] at h)).2

/-- While a command is in progress and no event from outside comes next, a step is a micro-step (30 R74). -/
theorem step_undisturbed {s : State} (hp : s.phase ≠ .idle) (hh : undisturbed 1 s.inputs = true) :
    step s = microStep (s.take (afterMicroStep s.inputs)) := by
  unfold step
  cases hin : s.inputs with
  | nil => rfl
  | cons x rest => cases x <;> simp_all [undisturbed, afterMicroStep]

/-- A clock edge with nothing else is a micro-step (10 R36). -/
theorem step_tick {s : State} {rest : List Input} (hin : s.inputs = .tick :: rest) :
    step s = microStep (s.take rest) := by
  unfold step
  rw [hin]

theorem step_rst {s : State} {rest : List Input} (hin : s.inputs = .rst :: rest) :
    step s = .next (s.take rest).resetEvent := by
  unfold step
  rw [hin]

theorem step_present {s : State} {rest : List Input} {w : Word} (hp : s.phase = .idle)
    (hin : s.inputs = .present w :: rest) : step s = .next (launch w (s.take rest)) := by
  unfold step
  rw [hin]
  simp [hp]

theorem step_txn {s : State} {rest : List Input} {t : HostTxn} (hp : s.phase = .idle)
    (hin : s.inputs = .txn t :: rest) : step s = hostTxn t (s.take rest) := by
  unfold step
  rw [hin]
  simp [hp]

/-! ### The scratch array -/

theorem writeScratch_of_lt {sc : Vector Byte Config.scratchDepth} {i : Nat} (x : Byte)
    (h : i < Config.scratchDepth) : writeScratch sc i x = some (sc.set i x h) := by
  simp [writeScratch, h]

theorem readScratch_set {sc : Vector Byte Config.scratchDepth} {i j : Nat} {x : Byte}
    (h : i < Config.scratchDepth) :
    readScratch (sc.set i x h) j = if i = j then some x else readScratch sc j := by
  simp [readScratch, Vector.getElem?_set]

/-! ### Extraction in numbers -/

/-- One extraction step in either base (41 R101, R102): the digit is the remainder by the radix, the new `ACC`
the quotient. -/
theorem extractStep_eq (s : State) :
    extractStep s = storeDigit (BitVec.ofNat 4 (s.acc.toNat % s.base.radix))
      (BitVec.ofNat 32 (s.acc.toNat / s.base.radix)) s := by
  unfold extractStep
  cases s.base
  · have hd : s.acc.extractLsb' 0 4 = BitVec.ofNat 4 (s.acc.toNat % 16) := by
      apply BitVec.eq_of_toNat_eq
      simp
    have hq : s.acc >>> 4 = BitVec.ofNat 32 (s.acc.toNat / 16) := by
      apply BitVec.eq_of_toNat_eq
      have := s.acc.isLt
      simp only [BitVec.toNat_ushiftRight, Nat.shiftRight_eq_div_pow, BitVec.toNat_ofNat]
      omega
    simp only [extractHex, hd, hq, radix_hex]
  · have hd : (s.acc % 10).setWidth 4 = BitVec.ofNat 4 (s.acc.toNat % 10) := by
      apply BitVec.eq_of_toNat_eq
      simp
    have hq : s.acc / 10 = BitVec.ofNat 32 (s.acc.toNat / 10) := by
      apply BitVec.eq_of_toNat_eq
      have := s.acc.isLt
      rw [BitVec.toNat_udiv, BitVec.toNat_ofNat, show (10 : Word).toNat = 10 from rfl]
      omega
    simp only [extractDec, hd, hq, radix_dec]

/-- What storing a digit does, where there is a free entry (10 R31). -/
theorem storeDigit_of_lt {d : BitVec 4} {q : Word} {s : State}
    (h : s.cnt.toNat < Config.scratchDepth) :
    storeDigit d q s = .next { s with
      scratch := s.scratch.set s.cnt.toNat (lut d s.upper) h
      acc := q
      cnt := s.cnt + 1
      phase := if q ≠ 0 then .extract else .check } := by
  simp only [storeDigit, writeScratch_of_lt _ h]

/-- A counter below its depth counts without wrapping (41 R108). -/
theorem counter_succ {c : BitVec 4} (h : c.toNat < 10) : (c + 1).toNat = c.toNat + 1 := by
  rw [BitVec.toNat_add, show (1 : BitVec 4).toNat = 1 from rfl]
  omega

/-! ### The check, in numbers -/

/-- `need` does not wrap (42 R115: it is at most 16 for any value of the 4-bit `CNT`). -/
theorem need_toNat (s : State) : s.need.toNat = s.cnt.toNat + s.termCount := by
  have h1 := s.cnt.isLt
  have h2 := termCount_le_one s
  simp only [State.need, BitVec.toNat_add, BitVec.toNat_setWidth, BitVec.toNat_ofNat]
  omega

theorem cap_lt_need (s : State) : s.cap < s.need ↔ s.cap.toNat < s.cnt.toNat + s.termCount := by
  rw [BitVec.lt_def, need_toNat]

/-- The address of a write step is the buffer's byte at the counter's offset (42 R116, 20 R58). -/
theorem counter_addr (s : State) (c : BitVec 4) :
    s.dst + c.setWidth 32 = s.bufferAddr c.toNat := by
  have : c.setWidth 32 = BitVec.ofNat 32 c.toNat := by
    apply BitVec.eq_of_toNat_eq
    simp
  rw [this, State.bufferAddr]

/-! ### Whole runs -/

/-- A run of a machine, one step at a time. -/
theorem run_unfold (M : Host.Core) (k : Nat) (s : M.State) :
    M.run (k + 1) s = match M.step s with
      | .next s' => M.run k s'
      | .fault r => .fault r
      | .refused r => .refused r := rfl

theorem run_zero {s t : State} : Host.Core.run Sys2Proof.core 0 s = .next t ↔ s = t :=
  ⟨fun h => Host.Outcome.next.inj h, fun h => h ▸ rfl⟩

/-- One step, and then the rest of a run. -/
theorem run_succ {s t : State} (k : Nat) (h : step s = .next t) :
    Host.Core.run Sys2Proof.core (k + 1) s = Host.Core.run Sys2Proof.core k t := by
  have h' : Sys2Proof.core.step s = .next t := h
  refine (run_unfold Sys2Proof.core k s).trans ?_
  rw [h']

/-- A run that has ended in a state went through one. -/
theorem run_succ_next {s t : State} {k : Nat}
    (h : Host.Core.run Sys2Proof.core (k + 1) s = .next t) :
    ∃ u, step s = .next u ∧ Host.Core.run Sys2Proof.core k u = .next t := by
  have h1 := (run_unfold Sys2Proof.core k s).symm.trans h
  cases hs : Sys2Proof.core.step s with
  | next u => exact ⟨u, hs, by rwa [hs] at h1⟩
  | fault r => rw [hs] at h1; cases h1
  | refused r => rw [hs] at h1; cases h1

/-- A run of `j` steps and then `k`. -/
theorem run_add {s t : State} (j k : Nat) (h : Host.Core.run Sys2Proof.core j s = .next t) :
    Host.Core.run Sys2Proof.core (j + k) s = Host.Core.run Sys2Proof.core k t := by
  induction j generalizing s with
  | zero => rw [Nat.zero_add, run_zero.1 h]
  | succ j ih =>
    obtain ⟨u, hu, hrun⟩ := run_succ_next h
    rw [show j + 1 + k = j + k + 1 by omega, run_succ (j + k) hu]
    exact ih hrun

end Sys2Proof.Machine
end

