-- ==== Sys2Proof/Laws/Run.lean ====
section
/-! SUPPORT. A command followed micro-step by micro-step: the state after each number of micro-steps in closed
form (41_accumulator.md R105, 42_buffer_write.md R116), and what one micro-step of a good state can do. -/

namespace Sys2Proof.Machine

open Safety

variable (b : Base) (s : State)

/-! ### The states of a command in closed form -/

/-- After launch and `k` extraction steps (41 R105). -/
def extractState (k : Nat) : State :=
  { s.beginCommand b with
    acc := BitVec.ofNat 32 (s.value.toNat / b.radix ^ k)
    cnt := BitVec.ofNat 4 k
    scratch := fillScratch b.radix s.value.toNat s.upper s.scratch k
    phase := if k < digits b s then .extract else .check }

/-- After the byte of write step `k` is written, before it is settled where the step goes (42 R116). -/
def wroteState (k : Nat) : State :=
  { ((s.beginCommand b).extracted b).memWrites ((commandWrites b s).take k) with
    widx := BitVec.ofNat 4 k
    phase := .write }

/-- After extraction, the check and `k` write steps (42 R116). -/
def writeState (k : Nat) : State :=
  { wroteState b s k with phase := if k < digits b s then .write else .termw }

/-- After launch and `j` more micro-steps of a command that has not ended. -/
def midState (j : Nat) : State :=
  if j ≤ digits b s then extractState b s j else writeState b s (j - (digits b s + 1))

theorem counter_toNat {k : Nat} (h : k ≤ 10) : (BitVec.ofNat 4 k).toNat = k := by
  rw [BitVec.toNat_ofNat]
  omega

theorem counter_ofNat_succ (k : Nat) : BitVec.ofNat 4 k + 1 = BitVec.ofNat 4 (k + 1) :=
  (BitVec.ofNat_add k 1).symm

theorem acc_toNat (k : Nat) :
    (BitVec.ofNat 32 (s.value.toNat / b.radix ^ k)).toNat = s.value.toNat / b.radix ^ k := by
  rw [BitVec.toNat_ofNat]
  exact Nat.mod_eq_of_lt (Nat.lt_of_le_of_lt (Nat.div_le_self _ _) s.value.isLt)

/-- Launch of a command with a good destination (41 R100). -/
theorem launchBase_good (h : s.badDestination = false) :
    launchBase b s = extractState b s 0 := by
  have hn := digits_pos b s
  simp only [launchBase, h, extractState, fillScratch, hn, Nat.pow_zero, Nat.div_one,
    Bool.false_eq_true, if_false, if_true]
  rw [show BitVec.ofNat 32 s.value.toNat = s.value by simp]
  rfl

theorem launchBase_bad (h : s.badDestination = true) : launchBase b s = encodeCommand b s := by
  simp [launchBase, encodeCommand, h]

/-- One extraction step (41 R105, the step of its induction). -/
theorem microStep_extractState {k : Nat} (hk : k < digits b s) :
    microStep (extractState b s k) = .next (extractState b s (k + 1)) := by
  have hn := digits_le_ten b s
  have hphase : (extractState b s k).phase = .extract := by simp [extractState, hk]
  have hcnt : (extractState b s k).cnt.toNat = k := counter_toNat (by omega)
  have hacc : (extractState b s k).acc.toNat = s.value.toNat / b.radix ^ k := acc_toNat b s k
  have hlt : (extractState b s k).cnt.toNat < Config.scratchDepth := by
    rw [hcnt]
    exact Nat.lt_of_lt_of_le hk hn
  have hzero := div_pow_eq_zero_iff b (k := k + 1) s.value.isLt (Nat.succ_pos k)
  have hq : BitVec.ofNat 32 (s.value.toNat / b.radix ^ k / b.radix) =
      BitVec.ofNat 32 (s.value.toNat / b.radix ^ (k + 1)) := by rw [div_pow_succ]
  have hq0 : BitVec.ofNat 32 (s.value.toNat / b.radix ^ (k + 1)) ≠ 0 ↔ k + 1 < digits b s := by
    rw [Ne, ← BitVec.toNat_inj, acc_toNat]
    show ¬ (s.value.toNat / b.radix ^ (k + 1) = 0) ↔ _
    rw [hzero]
    exact Nat.not_le
  have hstep : microStep (extractState b s k) = extractStep (extractState b s k) := by
    unfold microStep
    rw [hphase]
  rw [hstep, extractStep_eq, storeDigit_of_lt hlt]
  show Host.Outcome.next _ = Host.Outcome.next _
  have hbase : (extractState b s k).base = b := rfl
  rw [hacc, hbase, hq]
  simp only [hcnt, hq0]
  have hset : (extractState b s k).scratch.set k
      (lut (BitVec.ofNat 4 (s.value.toNat / b.radix ^ k % b.radix)) (extractState b s k).upper)
        (hcnt ▸ hlt) = (extractState b s (k + 1)).scratch := by
    show _ = (fillScratch b.radix s.value.toNat s.upper s.scratch k).setIfInBounds k _
    apply Vector.ext
    intro j hj
    rw [Vector.getElem_set, Vector.getElem_setIfInBounds]
    rfl
  rw [hset, show (extractState b s k).cnt + 1 = (extractState b s (k + 1)).cnt from
    counter_ofNat_succ k]
  rfl

/-- The state at the check holds the result of extraction (41 R105). -/
theorem extractState_digits :
    extractState b s (digits b s) = { (s.beginCommand b).extracted b with phase := .check } := by
  have h0 : s.value.toNat / b.radix ^ digits b s = 0 :=
    (div_pow_eq_zero_iff b s.value.isLt (digits_pos b s)).2 (Nat.le_refl _)
  simp only [extractState, h0, Nat.lt_irrefl, if_false]
  rfl

/-- The capacity check of a command that has room (42 R115). -/
theorem microStep_check_room (h : digits b s + s.termCount ≤ s.cap.toNat) :
    microStep (extractState b s (digits b s)) = .next (writeState b s 0) := by
  have hn := digits_pos b s
  rw [extractState_digits]
  have hcap : ¬ ({ (s.beginCommand b).extracted b with phase := .check } : State).cap <
      ({ (s.beginCommand b).extracted b with phase := .check } : State).need := by
    rw [cap_lt_need]
    show ¬ s.cap.toNat < (BitVec.ofNat 4 (digits b s)).toNat + s.termCount
    rw [digits_toNat]
    omega
  show Host.Outcome.next (checkStep _) = _
  rw [checkStep, if_neg hcap]
  simp only [writeState, wroteState, List.take_zero, hn, if_true, State.memWrites_nil]
  rfl

/-- The capacity check of a command that has no room ends it as the command level says (42 R115). -/
theorem microStep_check_noRoom (hb : s.badDestination = false)
    (h : s.cap.toNat < digits b s + s.termCount) :
    microStep (extractState b s (digits b s)) = .next (encodeCommand b s) := by
  rw [extractState_digits]
  have hcap : ({ (s.beginCommand b).extracted b with phase := .check } : State).cap <
      ({ (s.beginCommand b).extracted b with phase := .check } : State).need := by
    rw [cap_lt_need]
    show s.cap.toNat < (BitVec.ofNat 4 (digits b s)).toNat + s.termCount
    rwa [digits_toNat]
  show Host.Outcome.next (checkStep _) = _
  rw [checkStep, if_pos hcap]
  rcases encodeCommand_cases b s with ⟨h', -⟩ | ⟨-, -, h'⟩ | ⟨-, h', -⟩
  · rw [hb] at h'
    cases h'
  · rw [h']
    rfl
  · omega

/-- One more write of the command (20 R59). -/
theorem commandWrites_take_succ {k : Nat} {w : Addr × Byte} (h : (commandWrites b s)[k]? = some w) :
    (commandWrites b s).take (k + 1) = (commandWrites b s).take k ++ [w] := by
  rw [List.take_add_one, h]
  rfl

theorem memWrites_snoc (t : State) (ws : List (Addr × Byte)) (w : Addr × Byte) :
    (t.memWrites ws).memWrite w.1 w.2 = t.memWrites (ws ++ [w]) := by
  simp [State.memWrites, State.memWrite, Memory.writeAll, List.append_assoc]

/-- The scratch entry that write step `k` reads (42 R116). -/
theorem scratch_at_write {k : Nat} (hk : k < digits b s) :
    readScratch (fillScratch b.radix s.value.toNat s.upper s.scratch (digits b s))
      (digits b s - 1 - k) =
      some (digitChar b.radix s.value.toNat (digits b s - 1 - k) s.upper) := by
  have hn := digits_le_ten b s
  rw [readScratch, fillScratch_getElem?, if_pos]
  exact ⟨by omega, Nat.lt_of_lt_of_le (by omega) hn⟩

/-- One write step, up to where it goes next (42 R116). -/
theorem microStep_writeState {k : Nat} (hk : k < digits b s) :
    microStep (writeState b s k) = .next 
      (afterWrite (wroteState b s (k + 1))) := by
  have hn := digits_le_ten b s
  have hcnt : (writeState b s k).cnt.toNat = digits b s := digits_toNat b s
  have hwidx : (writeState b s k).widx.toNat = k := counter_toNat (by omega)
  have hlt : (writeState b s k).widx < (writeState b s k).cnt := by
    rw [BitVec.lt_def, hcnt, hwidx]
    exact hk
  have hphase : (writeState b s k).phase = .write := by simp [writeState, hk]
  have hread : readScratch (writeState b s k).scratch
      ((writeState b s k).cnt.toNat - 1 - (writeState b s k).widx.toNat) =
      some (digitChar b.radix s.value.toNat (digits b s - 1 - k) s.upper) := by
    rw [hcnt, hwidx]
    exact scratch_at_write b s hk
  have hget : (commandWrites b s)[k]? = some (s.bufferAddr k,
      digitChar b.radix s.value.toNat (digits b s - 1 - k) s.upper) := by
    rw [commandWrites_getElem?, if_pos (by omega), if_pos hk]
  have haddr : (writeState b s k).dst + (writeState b s k).widx.setWidth 32 = s.bufferAddr k := by
    rw [counter_addr, hwidx]
    rfl
  have hstep : microStep (writeState b s k) = writeStep (writeState b s k) := by
    unfold microStep
    rw [hphase]
  rw [hstep, writeStep, if_pos hlt, hread]
  simp only [haddr]
  simp only [writeState, wroteState, hk, if_true, State.memWrite, counter_ofNat_succ]
  rw [commandWrites_take_succ b s hget, ← memWrites_snoc]
  rfl

/-- Whether digits are left after write step `k` (42 R116). -/
theorem wroteState_lt {k : Nat} (hk : k ≤ digits b s) :
    (wroteState b s k).widx < (wroteState b s k).cnt ↔ k < digits b s := by
  have hn := digits_le_ten b s
  have h1 : (wroteState b s k).widx.toNat = k := counter_toNat (by omega)
  have h2 : (wroteState b s k).cnt.toNat = digits b s := digits_toNat b s
  rw [BitVec.lt_def, h1, h2]

theorem wroteState_term (k : Nat) : (wroteState b s k).term = s.term := rfl

/-- A write step that is not the last (42 R116). -/
theorem microStep_writeState_next {k : Nat} (hk : k + 1 < digits b s) :
    microStep (writeState b s k) = .next (writeState b s (k + 1)) := by
  rw [microStep_writeState b s (by omega), afterWrite,
    if_pos ((wroteState_lt b s (by omega)).2 hk)]
  simp only [writeState, hk, if_true]
  rfl

/-- The last write step when a terminator follows (42 R116). -/
theorem microStep_writeState_last_term {k : Nat} (hk : k + 1 = digits b s) (ht : s.term = true) :
    microStep (writeState b s k) = .next (writeState b s (digits b s)) := by
  rw [microStep_writeState b s (by omega), afterWrite,
    if_neg (fun h => Nat.ne_of_lt ((wroteState_lt b s (by omega)).1 h) hk),
    if_pos (by rw [wroteState_term, ht])]
  simp only [writeState, hk, Nat.lt_irrefl, if_false]

/-- The last write step when no terminator follows ends the command as the command level says (42 R118). -/
theorem microStep_writeState_last {k : Nat} (hs : Succeeds b s) (hk : k + 1 = digits b s)
    (ht : s.term = false) : microStep (writeState b s k) = .next (encodeCommand b s) := by
  have hlen : (commandWrites b s).take (digits b s) = commandWrites b s := by
    apply List.take_of_length_le
    rw [commandWrites_length, termCount_eq, ht]
    exact Nat.le_refl _
  rw [microStep_writeState b s (by omega), afterWrite,
    if_neg (fun h => Nat.ne_of_lt ((wroteState_lt b s (by omega)).1 h) hk),
    if_neg (by rw [wroteState_term, ht]; exact Bool.false_ne_true), encodeCommand_success hs]
  simp only [wroteState, hk, hlen]
  rfl

/-- The terminator step ends the command as the command level says (42 R117, R118). -/
theorem microStep_termw (hs : Succeeds b s) (ht : s.term = true) :
    microStep (writeState b s (digits b s)) = .next (encodeCommand b s) := by
  have hphase : (writeState b s (digits b s)).phase = .termw := by simp [writeState]
  have hget : (commandWrites b s)[digits b s]? = some (s.bufferAddr (digits b s), Config.termByte) := by
    rw [commandWrites_getElem?, if_pos (by rw [termCount_eq, ht]; exact Nat.lt_succ_self _),
      if_neg (Nat.lt_irrefl _)]
  have hlen : (commandWrites b s).take (digits b s + 1) = commandWrites b s := by
    apply List.take_of_length_le
    rw [commandWrites_length, termCount_eq, ht]
    exact Nat.le_refl _
  have haddr : (writeState b s (digits b s)).dst + (writeState b s (digits b s)).cnt.setWidth 32 =
      s.bufferAddr (digits b s) := by
    rw [counter_addr, show (writeState b s (digits b s)).cnt.toNat = digits b s from digits_toNat b s]
    rfl
  have hstep : microStep (writeState b s (digits b s)) = .next (termStep (writeState b s (digits b s))) := by
    unfold microStep
    rw [hphase]
  have hw : (((s.beginCommand b).extracted b).memWrites ((commandWrites b s).take (digits b s))).memWrite
      (s.bufferAddr (digits b s)) Config.termByte =
      ((s.beginCommand b).extracted b).memWrites (commandWrites b s) := by
    have h1 := memWrites_snoc ((s.beginCommand b).extracted b) ((commandWrites b s).take (digits b s))
      (s.bufferAddr (digits b s), Config.termByte)
    rw [← commandWrites_take_succ b s hget, hlen] at h1
    exact h1
  have hmem := congrArg State.mem hw
  have hissued := congrArg State.issued hw
  rw [hstep, termStep, haddr, encodeCommand_success hs]
  simp only [State.memWrite_mem, State.memWrite_issued, State.memWrites_mem, State.memWrites_issued,
    State.extracted_mem, State.extracted_issued] at hmem hissued
  simp only [writeState, wroteState, State.memWrite, State.finish, State.copiedOut, State.memWrites_mem,
    State.memWrites_issued, State.extracted_mem, State.extracted_issued, hmem, hissued,
    commandWrites_beginCommand, commandWrites_extracted]
  rfl

/-! ### The states of a whole command, numbered -/

/-- One micro-step inside a successful command that does not end it (70 R184). -/
theorem microStep_midState {j : Nat} (hs : Succeeds b s)
    (hj : j + 1 < 2 * digits b s + 1 + s.termCount) :
    microStep (midState b s j) = .next (midState b s (j + 1)) := by
  have hn := digits_pos b s
  unfold midState
  rcases Nat.lt_trichotomy j (digits b s) with h | h | h
  · rw [if_pos (by omega), if_pos (by omega)]
    exact microStep_extractState b s h
  · rw [if_pos (by omega), if_neg (by omega), h, Nat.sub_self]
    exact microStep_check_room b s hs.2
  · rw [if_neg (by omega), if_neg (by omega),
      show j + 1 - (digits b s + 1) = j - (digits b s + 1) + 1 by omega]
    by_cases hk : j - (digits b s + 1) + 1 < digits b s
    · exact microStep_writeState_next b s hk
    · have ht : s.term = true := by
        rw [termCount_eq] at hj
        by_cases h' : s.term = true
        · exact h'
        · rw [if_neg h'] at hj
          omega
      rw [termCount_eq, if_pos ht] at hj
      have hk' : j - (digits b s + 1) + 1 = digits b s := by omega
      rw [microStep_writeState_last_term b s hk' ht, hk']

/-- The last micro-step of a successful command (70 R184). -/
theorem microStep_midState_last {j : Nat} (hs : Succeeds b s)
    (hj : j + 1 = 2 * digits b s + 1 + s.termCount) :
    microStep (midState b s j) = .next (encodeCommand b s) := by
  have hn := digits_pos b s
  unfold midState
  rw [if_neg (by omega)]
  cases ht : s.term
  · rw [termCount_eq, ht] at hj
    exact microStep_writeState_last b s hs (by simp at hj; omega) ht
  · rw [termCount_eq, ht] at hj
    rw [show j - (digits b s + 1) = digits b s by simp at hj; omega]
    exact microStep_termw b s hs ht

/-- Inside a command the host port is held and nothing is reported (30 R74). -/
theorem midState_busy {j : Nat} : (midState b s j).phase ≠ .idle ∧ (midState b s j).resp = s.resp ∧
    (midState b s j).inputs = s.inputs := by
  unfold midState
  split
  · refine ⟨?_, rfl, rfl⟩
    simp only [extractState]
    split <;> simp
  · refine ⟨?_, rfl, rfl⟩
    simp only [writeState]
    split <;> simp

/-- The inputs and the response play no part in a command. -/
theorem midState_take (r : List Input) (j : Nat) :
    (midState b s j).take r = midState b (s.take r) j := by
  unfold midState
  have hd : digits b (s.take r) = digits b s := rfl
  rw [hd]
  split <;> rfl

/-- Inside an undisturbed command a step is the micro-step, whatever the inputs are (30 R74, 10 R36). -/
theorem step_midState (j : Nat) (hh : undisturbed 1 s.inputs = true) :
    step (midState b s j) = microStep (midState b (s.take (afterMicroStep s.inputs)) j) := by
  obtain ⟨hbusy, -, hin⟩ := midState_busy b s (j := j)
  rw [step_undisturbed hbusy (by rw [hin]; exact hh), midState_take, hin]

end Sys2Proof.Machine
end

