-- ==== Sys2Proof/Tests/Slice0.lean ====
section
/-! SUPPORT. The model's own tests: words written out from 30_encoding.md, single steps with results taken from
95_test_vectors.md, and for every statement with hypotheses a state and operands that meet them. -/

open Sys2Proof Sys2Proof.Machine Sys2Proof.Safety

namespace Sys2Proof.Tests

/-- The state after reset with the four operand registers set. -/
def ready (value dst cap : Word) (cfg : BitVec 2) : State :=
  { State.reset with value := value, dst := dst, cap := cap, cfg := cfg }

/-! ### WellFormed smoke tests -/

theorem test_wellFormed_accepts_the_map :
    commandWordWellFormed 1 = true ∧ commandWordWellFormed 2 = true := by decide

/-- The check of field `zero` refuses 0x11, whose `op` is that of ENCHEX (30 R77). -/
theorem test_wellFormed_refuses_zero_field :
    opDefined 0x11 = true ∧ zeroFieldClear 0x11 = false ∧ commandWordWellFormed 0x11 = false := by decide

/-- The check of field `op` refuses 0, 3 and 15 (30 R77). -/
theorem test_wellFormed_refuses_op :
    zeroFieldClear 3 = true ∧ opDefined 3 = false ∧ commandWordWellFormed 3 = false ∧
      commandWordWellFormed 0 = false ∧ commandWordWellFormed 15 = false := by decide

/-! ### Decoding: words written bit by bit from 30 R75, R76 -/

theorem test_decode_enchex : decode 0b0000000000000000000000000000_0001#32 = .instr .enchex := by decide

theorem test_decode_encdec : decode 0b0000000000000000000000000000_0010#32 = .instr .encdec := by decide

theorem test_decode_rejects_by_name :
    decode 0 = .reserved (.reservedOp 0) ∧ decode 3 = .reserved (.reservedOp 3) ∧
      decode 15 = .reserved (.reservedOp 15) ∧ decode 0x11 = .reserved (.zeroField 1) ∧
      decode 0x80000001 = .reserved (.zeroField 0x8000000) := by decide

theorem test_decodeTableWord : decodeTableWord 32 1 = some .enchex ∧ decodeTableWord 32 2 = some .encdec ∧
    decodeTableWord 32 0 = none ∧ decodeTableWord 32 0x11 = none := by decide

/-! ### One command in one step: 95_test_vectors.md section 2 -/

/-- V9, the source's example: 255 is `ff`. -/
theorem test_enchex_ff : ∃ t, exec .enchex (ready 0xFF 0x20000000 2 0) = .next t ∧
    t.mem = [(0x20000000, 0x66), (0x20000001, 0x66)] ∧ t.len = 2 ∧ t.status = 0x1 :=
  ⟨_, rfl, by decide⟩

/-- V13: uppercase, with a terminator. -/
theorem test_enchex_terminated : ∃ t, exec .enchex (ready 0xFF 0x20000000 3 3) = .next t ∧
    t.mem = [(0x20000000, 0x46), (0x20000001, 0x46), (0x20000002, 0x00)] ∧ t.len = 2 ∧ t.status = 0x1 :=
  ⟨_, rfl, by decide⟩

/-- 43 R132, the source's example: 4294967295 in a buffer of ten bytes. -/
theorem test_encdec_max : ∃ t, exec .encdec (ready 0xFFFFFFFF 0x20000000 10 0) = .next t ∧
    t.issued.map Prod.snd = [0x34, 0x32, 0x39, 0x34, 0x39, 0x36, 0x37, 0x32, 0x39, 0x35] ∧
    t.len = 10 ∧ t.status = 0x1 :=
  ⟨_, rfl, by decide⟩

/-- The same with a terminator asked: the buffer is one byte short (V43). -/
theorem test_encdec_one_short : ∃ t, exec .encdec (ready 0xFFFFFFFF 0x20000000 10 2) = .next t ∧
    t.issued = [] ∧ t.mem = [] ∧ t.len = 0 ∧ t.status = 0x3 :=
  ⟨_, rfl, by decide⟩

/-! ### The host port -/

/-- A write to `CFG` keeps bits 1:0 (30 R71). -/
theorem test_write_cfg : ∃ t, step { State.reset with inputs := [.txn (.write 3 0xFFFFFFFD)] } = .next t ∧
    t.cfg = 1 ∧ t.hostRead .cfg = 1 ∧ t.resp = some .wrote :=
  ⟨_, rfl, by decide⟩

/-- A write to `LEN` is ignored (30 R73). -/
theorem test_write_len : ∃ t, step { State.reset with inputs := [.txn (.write 5 7)] } = .next t ∧
    t.len = 0 ∧ t.status = 0 :=
  ⟨_, rfl, by decide⟩

/-- A reserved word on an unconfigured block: code 3 before code 2 (60 R155; program P5 line 5). -/
theorem test_reserved_word : ∃ t, step { State.reset with inputs := [.txn (.write 4 0)] } = .next t ∧
    t.status = 0x7 ∧ t.len = 0 ∧ t.hostRead .status = 7 :=
  ⟨_, rfl, by decide⟩

/-- The first step after reset, with a table word placed (70 R173). -/
theorem test_withFetchWord : ∃ t, step (State.reset.withFetchWord 32 2) = .next t ∧
    t.status = 0x5 ∧ t.base = .dec :=
  ⟨_, rfl, by decide⟩

/-! ### Micro-steps -/

/-- A command in progress over `ready`: its phase, counters, accumulator and scratch array. -/
def busy (s : State) (p : Phase) (b : Base) (acc : Word) (cnt widx : BitVec 4)
    (scratch : Vector Byte 10) (issued : List (Addr × Byte)) : State :=
  { s with phase := p, base := b, acc := acc, cnt := cnt, widx := widx, scratch := scratch,
           issued := issued }

/-- 41 R108: 0xFFFFFFFF mod 10 = 5, 0xFFFFFFFF div 10 = 0x19999999. -/
theorem test_extract_dec :
    ∃ t, step (busy (ready 0xFFFFFFFF 1 10 0) .extract .dec 0xFFFFFFFF 0 0 (Vector.replicate 10 0) []) =
      .next t ∧ t.acc = 0x19999999 ∧ t.cnt = 1 ∧ readScratch t.scratch 0 = some 0x35 ∧ t.phase = .extract :=
  ⟨_, rfl, by decide⟩

/-- 41 R101: the last nibble ends extraction. -/
theorem test_extract_hex_last :
    ∃ t, step (busy (ready 0xA 1 10 1) .extract .hex 0xA 0 0 (Vector.replicate 10 0) []) = .next t ∧
      t.acc = 0 ∧ t.cnt = 1 ∧ readScratch t.scratch 0 = some 0x41 ∧ t.phase = .check :=
  ⟨_, rfl, by decide⟩

/-! ### Witnesses: states and operands that meet the hypotheses of the statements

`cmd i s` is `s` with the host's `CMD` write of `i` next; the `…S` states are the command ENCHEX of 0xFF with a
terminator (three bytes) in each of its phases. -/

/-- `s` with one input next. -/
def next (s : State) (x : Input) : State := { s with inputs := [x] }

/-- The bytes `ff` in the scratch array. -/
def scratchFF : Vector Byte 10 := #v[0x66, 0x66, 0, 0, 0, 0, 0, 0, 0, 0]

def extractS : State := busy (ready 0xFF 0x20000000 3 2) .extract .hex 0xF 1 0 scratchFF []

def checkS : State := busy (ready 0xFF 0x20000000 3 2) .check .hex 0 2 0 scratchFF []

def writeS : State := busy (ready 0xFF 0x20000000 3 2) .write .hex 0 2 1 scratchFF [(0x20000000, 0x66)]

def termS : State :=
  busy (ready 0xFF 0x20000000 3 2) .termw .hex 0 2 2 scratchFF [(0x20000000, 0x66), (0x20000001, 0x66)]

theorem witness_good_idle : Good State.reset := by
  unfold Good CommandInv; dsimp only [State.reset]; decide

theorem witness_good_extract : Good extractS ∧ extractS.phase ≠ .idle := by
  unfold Good CommandInv; dsimp only [extractS, busy, ready, State.reset]; decide

theorem witness_good_check : Good checkS ∧ checkS.phase ≠ .idle := by
  unfold Good CommandInv; dsimp only [checkS, busy, ready, State.reset]; decide

theorem witness_good_write : Good writeS ∧ writeS.phase ≠ .idle := by
  unfold Good CommandInv; dsimp only [writeS, busy, ready, State.reset]; decide

theorem witness_good_termw : Good termS ∧ termS.phase ≠ .idle := by
  unfold Good CommandInv; dsimp only [termS, busy, ready, State.reset]; decide

/-! #### Encoding, reset, the host port -/

theorem witness_DecodeOfEncode : Instr.enchex.wellFormed = true ∧ Instr.encdec.wellFormed = true := by decide

theorem witness_ResetEventRestoresRegisters : ∃ rest, (next writeS .rst).inputs = .rst :: rest := ⟨_, rfl⟩

theorem witness_FirstCommandAfterResetIsRefused : ∃ rest,
    ({ writeS with inputs := [.rst, .txn (.write 4 (encode .encdec))] } : State).inputs =
      .rst :: .txn (.write 4 (encode .encdec)) :: rest := ⟨_, rfl⟩

theorem witness_StepRunsTheDecodedCommand : ∃ rest,
    (next (ready 0xFF 1 2 0) (.txn (.write 4 1))).phase = .idle ∧
      (next (ready 0xFF 1 2 0) (.txn (.write 4 1))).inputs = .txn (.write 4 1) :: rest ∧
      decode 1 = .instr .enchex := ⟨_, rfl, rfl, by decide⟩

/-- Both forms of the write, with the reserved words next to the map and at the ends of the fields. -/
theorem witness_ReservedWordFailsWithCode3 :
    (∀ w ∈ [0x0#32, 0x3#32, 0xF#32, 0x10#32, 0x11#32, 0xFFFFFFFF#32], w ≠ 1 ∧ w ≠ 2) ∧
      (next State.reset (.txn (.write 4 0x11))).phase = .idle ∧
      (next State.reset (.txn (.write 4 0x11))).inputs = [.txn (.write 4 0x11)] ∧
      (next State.reset (.present 0)).inputs = [.present 0] := ⟨by simp, rfl, rfl, rfl⟩

/-- Every offset, `CMD` included. -/
theorem witness_HostWriteStoresTheRegister : ∀ off : BitVec 3,
    (next State.reset (.txn (.write off 0xFFFFFFFD))).phase = .idle ∧
      (next State.reset (.txn (.write off 0xFFFFFFFD))).inputs = [.txn (.write off 0xFFFFFFFD)] := by decide

theorem witness_HostReadReturnsTheRegister : ∀ off : BitVec 3,
    (next (ready 1 2 3 3) (.txn (.read off))).phase = .idle ∧
      (next (ready 1 2 3 3) (.txn (.read off))).inputs = [.txn (.read off)] := by decide

/-- A command that goes on, with a host read held. -/
theorem witness_HostPortIsHeldDuringACommand_goes_on : ∃ t, (next checkS (.txn (.read 5))).phase ≠ .idle ∧
    step (next checkS (.txn (.read 5))) = .next t ∧ t.phase ≠ .idle := ⟨_, by decide, rfl, by decide⟩

/-- A command that ends, with a second `CMD` write held. -/
theorem witness_HostPortIsHeldDuringACommand_ends : ∃ t, (next termS (.present 1)).phase ≠ .idle ∧
    step (next termS (.present 1)) = .next t ∧ t.phase = .idle := ⟨_, by decide, rfl, by decide⟩

theorem witness_ResultsChangeOnlyWhenACommandEnds : ∃ t, step { termS with status := 0x3 } = .next t ∧
    ({ termS with status := 0x3 } : State).inputs = [] ∧ ({ termS with status := 0x3 } : State).done = true ∧
    t.len ≠ termS.len ∧ t.status ≠ 0x3 := ⟨_, rfl, by decide⟩

theorem witness_OperandsChangeOnlyByTheHost : ∃ t, step (next State.reset (.txn (.write 3 2))) = .next t ∧
    t.cfg ≠ State.reset.cfg := ⟨_, rfl, by decide⟩

theorem witness_OperandsChangeOnlyByTheHost_reset : ∃ t, step (next writeS .rst) = .next t ∧
    t.value ≠ writeS.value := ⟨_, rfl, by decide⟩

theorem witness_MemoryChangesOnlyByWrites_agent :
    ∃ t, step (next State.reset (.agent 5 7)) = .next t ∧ t.mem ≠ [] := ⟨_, rfl, by decide⟩

theorem witness_MemoryChangesOnlyByWrites_microstep : (∃ t, step writeS = .next t ∧ t.mem ≠ writeS.mem) ∧
    ∃ t, step termS = .next t ∧ t.mem ≠ termS.mem := ⟨⟨_, rfl, by decide⟩, ⟨_, rfl, by decide⟩⟩

theorem witness_MemoryChangesOnlyByWrites_command :
    ∃ t, step (next (ready 0xFF 1 2 0) (.txn (.write 4 1))) = .next t ∧ t.mem ≠ [] := ⟨_, rfl, by decide⟩

theorem witness_OtherAgentWritesOneByte : ∃ rest,
    (next writeS (.agent 0xFFFFFFFF 7)).inputs = .agent 0xFFFFFFFF 7 :: rest := ⟨_, rfl⟩

/-! #### The table and the digits -/

/-- The digit values where the clauses meet. -/
theorem witness_LutCharacterCodes : (9#4).toNat ≤ 9 ∧ 10 ≤ (10#4).toNat ∧ 10 ≤ (15#4).toNat ∧
    lut 9 true = 0x39 ∧ lut 10 false = 0x61 ∧ lut 15 true = 0x46 := by decide

theorem witness_LutIsInjective : lut 10 true = lut 10 true := rfl

/-- The value 0 and the greatest value. -/
theorem witness_DigitStringIsCanonical : 0 < 2 ^ 32 ∧ 4294967295 < 2 ^ 32 ∧ ndig 10 4294967295 = 10 ∧
    ndig 16 4294967295 = 8 ∧ ndig 10 0 = 1 := by decide

/-- Both sides of a boundary of the table of 41 R106. -/
theorem witness_HexDigitCountByRange : 0xFFFF < 2 ^ 32 ∧ 0x10000 < 2 ^ 32 ∧ ndig 16 0xFFFF = 4 ∧
    ndig 16 0x10000 = 5 := by decide

/-- Both sides of a boundary of the table of 41 R107. -/
theorem witness_DecDigitCountByRange : 999999999 < 2 ^ 32 ∧ 1000000000 < 2 ^ 32 ∧
    ndig 10 999999999 = 9 ∧ ndig 10 1000000000 = 10 := by decide

/-! #### The commands -/

/-- The three outcomes at their boundary: a null destination, one byte short, and exactly enough. -/
theorem witness_CommandIsTheEncodeFunction :
    ((ready 0xFF 0 3 2).dst = 0) ∧
    ((ready 0xFF 1 2 2).dst ≠ 0 ∧ (ready 0xFF 1 2 2).cap ≠ 0 ∧
      ndig 16 (ready 0xFF 1 2 2).value.toNat + (ready 0xFF 1 2 2).cfg.toNat / 2 >
        (ready 0xFF 1 2 2).cap.toNat) ∧
    ((ready 0xFF 1 3 2).dst ≠ 0 ∧ (ready 0xFF 1 3 2).cap ≠ 0 ∧
      ndig 16 (ready 0xFF 1 3 2).value.toNat + (ready 0xFF 1 3 2).cfg.toNat / 2 ≤
        (ready 0xFF 1 3 2).cap.toNat) := by decide

theorem witness_BufferHoldsTheDigits : Succeeds .hex (ready 0xFF 0xFFFFFFFF 3 2) ∧
    Succeeds .dec (ready 0xFF 0xFFFFFFFF 4 2) ∧ (ready 0xFF 0xFFFFFFFF 4 2).term = true := by decide

theorem witness_EnchexWritesTheHexDigits : Succeeds .hex (ready 0xFFFFFFFF 0x20000000 9 3) ∧
    (ready 0xFFFFFFFF 0x20000000 9 3).term = true := by decide

theorem witness_EncdecWritesTheDecimalDigits : Succeeds .dec (ready 0xFFFFFFFF 0x20000000 11 2) ∧
    (ready 0xFFFFFFFF 0x20000000 11 2).term = true := by decide

theorem witness_BadDestinationFailsWithCode2 : (ready 5 0 1 0).dst = 0 ∧ (ready 5 1 0 0).cap = 0 := by decide

theorem witness_BadDestinationFailsWithCode2_first_write :
    ∃ t w, exec .enchex (ready 5 0xFFFFFFFF 1 0) = .next t ∧ t.issued.head? = some w :=
  ⟨_, (0xFFFFFFFF, 0x35), rfl, by decide⟩

/-- One byte short, with and without a terminator. -/
theorem witness_TooSmallCapacityFailsWithCode1 :
    ∀ s ∈ [ready 0x100 1 2 0, ready 0xFF 1 2 2], s.dst ≠ 0 ∧ s.cap ≠ 0 ∧
      digits .hex s + (if s.term then 1 else 0) > s.cap.toNat := by decide

/-- Codes 3, 2, 1 and 0, each where the ones after it hold as well. -/
theorem witness_FailurePriority : decode 0 = .reserved (.reservedOp 0) ∧ decode 1 = .instr .enchex ∧
    (ready 0xFF 0 1 0).dst = 0 ∧ digits .hex (ready 0xFF 1 1 0) > (ready 0xFF 1 1 0).cap.toNat ∧
    digits .hex (ready 0xFF 1 2 0) ≤ (ready 0xFF 1 2 0).cap.toNat := by decide

theorem witness_SuccessExactlyWhenItFits : (ready 0xFFFFFFFF 1 11 2).dst ≠ 0 ∧
    11 ≤ (ready 0xFFFFFFFF 1 11 2).cap.toNat := by decide

theorem witness_ZeroIsOneDigit : ∀ s ∈ [ready 0 1 1 0, ready 0 1 2 2], s.value = 0 ∧ s.dst ≠ 0 ∧
    1 + s.termCount ≤ s.cap.toNat := by decide

theorem witness_ZeroIsOneDigit_terminated : (ready 0 1 2 2).term = true := by decide

theorem witness_MaximumValueStrings : (ready 0xFFFFFFFF 1 8 1).value = 0xFFFFFFFF ∧
    (ready 0xFFFFFFFF 1 8 1).dst ≠ 0 ∧
    8 + (ready 0xFFFFFFFF 1 8 1).termCount ≤ (ready 0xFFFFFFFF 1 8 1).cap.toNat ∧
    10 + (ready 0xFFFFFFFF 1 11 2).termCount ≤ (ready 0xFFFFFFFF 1 11 2).cap.toNat := by decide

theorem witness_ZeroCapacityFails : (ready 0xFF 1 0 0).cap = 0 := rfl

/-- The greatest buffer that does not wrap, and a command that succeeds in it. -/
theorem witness_NoWrapMeansContiguous : NoWrap (ready 0xFF 0xFFFFFFFD 3 2) ∧
    Succeeds .hex (ready 0xFF 0xFFFFFFFD 3 2) := by decide

theorem witness_WritesAscendEachOffsetOnce : Succeeds .hex (ready 0xFF 0xFFFFFFFF 3 2) ∧
    ¬ Succeeds .hex (ready 0xFF 0xFFFFFFFF 2 2) := by decide

theorem witness_FailureWritesNothing : ∃ t, command 2 (ready 100000 0x20000200 4 0) = .next t ∧
    t.status ≠ 0x1 := ⟨_, rfl, by decide⟩

theorem witness_FailureWritesNothing_write :
    (writeS.phase = .write ∧ ∃ t, step writeS = .next t) ∧ (termS.phase = .termw ∧ ∃ t, step termS = .next t) ∧
      ∀ rest, writeS.inputs ≠ .rst :: rest :=
  ⟨⟨rfl, _, rfl⟩, ⟨rfl, _, rfl⟩, fun _ h => by cases h⟩

theorem witness_CommandFrame_success : ∃ t, exec .enchex (ready 0xFF 1 3 2) = .next t ∧
    Succeeds .hex (ready 0xFF 1 3 2) ∧ digits .hex (ready 0xFF 1 3 2) ≤ 2 ∧
    ∀ k, k < digits .hex (ready 0xFF 1 3 2) + (ready 0xFF 1 3 2).termCount →
      (4 : Addr) ≠ (ready 0xFF 1 3 2).bufferAddr k := ⟨_, rfl, by decide⟩

theorem witness_CommandFrame_failure : ∃ t, exec .encdec (ready 0xFF 1 3 2) = .next t ∧
    ¬ Succeeds .dec (ready 0xFF 1 3 2) := ⟨_, rfl, by decide⟩

theorem witness_LengthBounds : (∃ t, exec .encdec (ready 0xFFFFFFFF 1 11 2) = .next t ∧ t.status = 0x1) ∧
    ∃ t, exec .encdec (ready 0xFFFFFFFF 1 10 2) = .next t ∧ t.status ≠ 0x1 :=
  ⟨⟨_, rfl, by decide⟩, ⟨_, rfl, by decide⟩⟩

/-- Two states that agree on the operands and differ in everything else; and in the destination. -/
theorem witness_OutcomeDependsOnOperandsAlone : ∀ s ∈ [termS, { ready 0xFF 7 3 2 with mem := [(9, 1)] }],
    (ready 0xFF 0x20000000 3 2).value = s.value ∧ (ready 0xFF 0x20000000 3 2).cap = s.cap ∧
      (ready 0xFF 0x20000000 3 2).cfg = s.cfg ∧ s.dst ≠ 0 := by decide

theorem witness_OutcomeDependsOnOperandsAlone_same_destination :
    (ready 0xFF 0x20000000 3 2).dst = termS.dst := rfl

theorem witness_CommandIsIdempotent : ∃ t, Memory.wf (ready 0xFF 0xFFFFFFFF 3 2).mem = true ∧
    exec .enchex (ready 0xFF 0xFFFFFFFF 3 2) = .next t ∧ t.mem ≠ [] := ⟨_, rfl, rfl, by decide⟩

theorem witness_EncdecIgnoresUpper : (ready 0xFF 1 4 2).value = (ready 0xFF 1 4 3).value ∧
    (ready 0xFF 1 4 2).dst = (ready 0xFF 1 4 3).dst ∧ (ready 0xFF 1 4 2).cap = (ready 0xFF 1 4 3).cap ∧
    (ready 0xFF 1 4 2).term = (ready 0xFF 1 4 3).term ∧
    (ready 0xFF 1 4 2).upper ≠ (ready 0xFF 1 4 3).upper := by decide

theorem witness_WrittenStringParsesBack : Succeeds .hex (ready 0xABCDEF01 1 8 1) ∧
    Succeeds .dec (ready 0xFFFFFFFF 1 10 0) := by decide

/-! #### The micro-steps -/

/-- The three branches of the launch. -/
theorem witness_LaunchMicroStep :
    (next (ready 0xFF 1 2 0) (.present 2)).phase = .idle ∧
    (next (ready 0xFF 1 2 0) (.present 2)).inputs = [.present 2] ∧
    (next State.reset (.present 1)).dst = 0 ∧ (3 : Word) ≠ 1 ∧ (3 : Word) ≠ 2 := by decide

/-- A step that goes on to the next digit, and one into the last free entry that ends extraction; on a clock edge
and without an input. -/
theorem witness_HexExtractionStep :
    ∀ s ∈ [next (busy (ready 0xFF 1 2 0) .extract .hex 0xFF 0 0 scratchFF []) .tick,
        busy (ready 0xFF 1 2 0) .extract .hex 0xF 9 0 scratchFF []],
      s.phase = .extract ∧ s.base = .hex ∧ undisturbed 1 s.inputs = true ∧ s.cnt.toNat < 10 := by decide

theorem witness_DecimalExtractionStep :
    ∀ s ∈ [next (busy (ready 10 1 2 0) .extract .dec 10 0 0 scratchFF []) .tick,
        busy (ready 10 1 2 0) .extract .dec 9 9 0 scratchFF []],
      s.phase = .extract ∧ s.base = .dec ∧ undisturbed 1 s.inputs = true ∧ s.cnt.toNat < 10 := by decide

/-- Exactly enough capacity, and one byte short. -/
theorem witness_CapacityCheckStep : checkS.phase = .check ∧ undisturbed 1 checkS.inputs = true ∧
    undisturbed 1 (next checkS .tick).inputs = true ∧
    checkS.cnt.toNat + 1 = checkS.cap.toNat ∧
    ({ checkS with cap := 2 } : State).cnt.toNat + 1 > ({ checkS with cap := 2 } : State).cap.toNat := by decide

/-- A first write step, a last one before the terminator, and a last one that finishes. -/
theorem witness_WriteMicroStep :
    ∀ s ∈ [next { writeS with widx := 0, issued := [] } .tick, writeS, { writeS with cfg := 0 }],
      s.phase = .write ∧ undisturbed 1 s.inputs = true ∧ s.widx.toNat < s.cnt.toNat ∧ s.cnt.toNat ≤ 10 := by decide

theorem witness_TerminatorMicroStep : termS.phase = .termw ∧ undisturbed 1 termS.inputs = true ∧
    undisturbed 1 (next termS .tick).inputs = true := by decide

/-- No step, a step on the way, and all the steps; the two steps on clock edges, then a reset. -/
theorem witness_ExtractionLoopInvariant : (ready 0xFF 1 2 0).phase = .idle ∧
    undisturbed 2 [.tick, .tick, .rst] = true ∧ undisturbed 0 [.rst] = true ∧
    (ready 0xFF 1 2 0).dst ≠ 0 ∧ (ready 0xFF 1 2 0).cap ≠ 0 ∧ digits .hex (ready 0xFF 1 2 0) = 2 ∧
    0 ≤ 2 ∧ 1 ≤ 2 ∧ 2 ≤ 2 := by decide

/-- A command of six micro-steps: no input after it, a transaction, a second command, and its five further
micro-steps on clock edges with a reset after them. -/
theorem witness_TheTwoLevelsAgree : (ready 0xFF 1 2 0).phase = .idle ∧ microSteps 1 (ready 0xFF 1 2 0) = 6 ∧
    ∀ rest ∈ [[], [.txn (.read 5)], [.tick, .present 2, .rst], [.tick, .tick, .tick, .tick, .tick, .rst]],
      undisturbed 5 rest = true := by decide

theorem witness_MicroStepCounts : (ready 0xFF 1 2 0).phase = .idle ∧
    undisturbed (microSteps 1 (ready 0xFF 1 2 0) - 1) [.tick, .tick, .tick, .tick, .tick, .rst] = true ∧
    0 < 5 ∧ 5 < microSteps 1 (ready 0xFF 1 2 0) := by decide

theorem witness_ResetLeavesAPrefix : Good (next writeS .rst) ∧ (next writeS .rst).phase ≠ .idle ∧
    (next writeS .rst).inputs = [.rst] := by
  unfold Good CommandInv; dsimp only [next, writeS, busy, ready, State.reset]; decide

/-- A reset right after the launch, and one just before the last micro-step. -/
theorem witness_ResetLeavesAPrefix_run : (ready 0xFF 1 3 2).phase = .idle ∧ Succeeds .hex (ready 0xFF 1 3 2) ∧
    0 + 1 < 2 * digits .hex (ready 0xFF 1 3 2) + 2 + (ready 0xFF 1 3 2).termCount ∧
    5 + 1 < 2 * digits .hex (ready 0xFF 1 3 2) + 2 + (ready 0xFF 1 3 2).termCount := by decide

/-! #### The invariant and memory

`witness_good_idle` to `witness_good_termw` meet the hypotheses of EveryStepKeepsTheInvariant,
CountersStayInRange and BytesIssuedSoFarAreInTheBuffer, one for each phase. -/

theorem witness_CountersStayInRange_write : writeS.phase = .write ∧ termS.phase = .termw ∧
    extractS.phase = .extract ∧ checkS.phase ≠ .extract := by decide

theorem witness_BytesIssuedSoFarAreInTheBuffer : termS.issued[1]? = some (0x20000001, 0x66) := by decide

theorem witness_EveryCommandEnds : Good writeS ∧ writeS.phase ≠ .idle ∧ undisturbed 22 writeS.inputs = true :=
  ⟨witness_good_write.1, by decide, rfl⟩

/-- The same on clock edges, with another agent's write after them. -/
theorem witness_EveryCommandEnds_ticks :
    Good { writeS with inputs := List.replicate 22 .tick ++ [.agent 0 0] } ∧
      undisturbed 22 (List.replicate 22 .tick ++ [.agent 0 0]) = true := by
  refine ⟨?_, by decide⟩
  unfold Good CommandInv; dsimp only [writeS, busy, ready, State.reset]; decide

/-- No input, and a clock edge. -/
theorem witness_IdleBlockWaits : State.reset.phase = .idle ∧ State.reset.inputs = [] ∧
    (next State.reset .tick).phase = .idle ∧ (next State.reset .tick).inputs = [.tick] := by decide

/-- Two writes in either order make equal data. -/
theorem witness_MemoryReadsTheLastWrite :
    Memory.wf (Memory.write (Memory.write [] 5 1) 0 2) = true ∧
      Memory.write (Memory.write [] 5 1) 0 2 = Memory.write (Memory.write [] 0 2) 5 1 := by decide

end Sys2Proof.Tests
end

section
/-! The reset event as the host sees it, and `DONE` after every command word (10_state.md R38,
70_reset_and_hazards.md R170). -/

namespace Sys2Proof.Machine

/-! ### The reset state as the host sees it -/

theorem State.done_of_status_eq_zero {s : State} (h : s.status = 0) : s.done = false := by
  simp [State.done, h]

@[simp] theorem State.resetEvent_done (s : State) : s.resetEvent.done = false :=
  State.done_of_status_eq_zero s.resetEvent_status

@[simp] theorem State.resetEvent_hostRead (s : State) (r : HostReg) : s.resetEvent.hostRead r = 0 := by
  cases r <;> rfl

/-! ### The command level, by what the word decodes to (30_encoding.md R74 to R77) -/

theorem command_of_instr {w : Word} {i : Instr} (h : decode w = .instr i) (s : State) :
    command w s = .next (encodeCommand i.base s) := by
  rw [command, h]
  exact exec_eq i s

theorem command_of_reserved {w : Word} {why : Reject} (h : decode w = .reserved why) (s : State) :
    command w s = .next (illegalCommand s) := by
  rw [command, h]

/-- Every command word answers a next state: that of its command, or that of an illegal command. -/
theorem command_cases (w : Word) (s : State) :
    (∃ i, decode w = .instr i ∧ command w s = .next (encodeCommand i.base s)) ∨
    (∃ why, decode w = .reserved why ∧ command w s = .next (illegalCommand s)) := by
  cases h : decode w with
  | instr i => exact .inl ⟨i, rfl, command_of_instr h s⟩
  | reserved why => exact .inr ⟨why, rfl, command_of_reserved h s⟩

@[simp] theorem encodeCommand_done (b : Base) (s : State) : (encodeCommand b s).done = true := by
  rcases encodeCommand_cases b s with ⟨-, h⟩ | ⟨-, -, h⟩ | ⟨-, -, h⟩
  · rw [h, State.raiseFail_done]
  · rw [h, State.raiseFail_done]
  · rw [h, State.finish_done]

@[simp] theorem illegalCommand_done (s : State) : (illegalCommand s).done = true :=
  State.raiseFail_done _ _

theorem command_done (w : Word) (s : State) : ∃ t, command w s = .next t ∧ t.done = true := by
  rcases command_cases w s with ⟨i, -, h⟩ | ⟨-, -, h⟩
  · exact ⟨_, h, encodeCommand_done i.base s⟩
  · exact ⟨_, h, illegalCommand_done s⟩

/-- Settles O6: the step is the reset event (`step_rst`), whose fields are read off one by one; a command word ends
in `raiseFail` or in `finish`, and both set `DONE`. -/
theorem resetEventRestoresRegisters : Obligations.ResetEventRestoresRegisters := by
  unfold Obligations.ResetEventRestoresRegisters
  refine ⟨fun s rest hin => ?_, command_done⟩
  exact ⟨_, step_rst hin, by simp⟩

end Sys2Proof.Machine
end

section
/-! The bounds law of a command's writes, their order, and the idempotence of a command (20_memory.md R57, R59,
R65). -/

namespace Sys2Proof.Machine

open Safety

/-! ### The bytes a command issues (20_memory.md R57, R58) -/

theorem bufferAddr_toNat (s : State) (k : Nat) :
    (s.bufferAddr k).toNat = (s.dst.toNat + k) % 2 ^ 32 := by
  simp [State.bufferAddr]

/-- Every byte a command issues goes to an offset below `CAP`, whether the command succeeds or not. -/
theorem mem_encodeCommand_issued {b : Base} {s : State} {w : Addr × Byte}
    (hw : w ∈ (encodeCommand b s).issued) : ∃ k, k < s.cap.toNat ∧ w.1 = s.bufferAddr k := by
  rcases encodeCommand_outcome b s with ⟨hs, hissued, -⟩ | ⟨-, hissued, -⟩
  · obtain ⟨k, hk, haddr⟩ := mem_commandWrites (hissued ▸ hw)
    exact ⟨k, Nat.lt_of_lt_of_le hk hs.2, haddr⟩
  · simp [hissued] at hw

theorem encodeCommand_issued_length_le_cap (b : Base) (s : State) :
    (encodeCommand b s).issued.length ≤ s.cap.toNat := by
  rcases encodeCommand_outcome b s with ⟨hs, hissued, -⟩ | ⟨-, hissued, -⟩
  · rw [hissued, commandWrites_length]
    exact hs.2
  · simp [hissued]

theorem encodeCommand_len_le_issued_length (b : Base) (s : State) :
    (encodeCommand b s).len.toNat ≤ (encodeCommand b s).issued.length := by
  rcases encodeCommand_outcome b s with ⟨-, hissued, -, hlen, -⟩ | ⟨-, -, -, hlen, -⟩
  · rw [hissued, commandWrites_length, hlen]
    exact Nat.le_add_right _ _
  · simp [hlen]

theorem encodeCommand_read_of_not_inBuffer (b : Base) {s : State} {a : Addr} (ha : ¬ InBuffer s a) :
    (encodeCommand b s).mem.read a = s.mem.read a := by
  rcases encodeCommand_outcome b s with ⟨hs, -, hmem, -⟩ | ⟨-, -, hmem, -⟩
  · rw [hmem]
    exact read_commandWrites_other b s s.mem fun k hk haddr =>
      ha ⟨k, Nat.lt_of_lt_of_le hk hs.2, haddr⟩
  · rw [hmem]

/-- Settles O33: a command that succeeds has `digits + TERM ≤ CAP` and writes at the offsets below
`digits + TERM`; any other command writes nothing. -/
theorem neverWritesOutsideTheBuffer : Obligations.NeverWritesOutsideTheBuffer := by
  unfold Obligations.NeverWritesOutsideTheBuffer
  intro i s
  refine ⟨_, exec_eq i s, fun w hw => ?_, encodeCommand_issued_length_le_cap i.base s,
    encodeCommand_len_le_issued_length i.base s, fun a => encodeCommand_read_of_not_inBuffer i.base⟩
  obtain ⟨k, hk, haddr⟩ := mem_encodeCommand_issued hw
  exact ⟨k, hk, haddr ▸ bufferAddr_toNat s k⟩

/-! ### The order of the writes (20_memory.md R59, 42_buffer_write.md R119) -/

theorem encodeCommand_issued_of_succeeds {b : Base} {s : State} (h : Succeeds b s) :
    (encodeCommand b s).issued = commandWrites b s := by
  simp [encodeCommand_success h]

theorem encodeCommand_issued_of_not_succeeds {b : Base} {s : State} (h : ¬ Succeeds b s) :
    (encodeCommand b s).issued = [] := by
  rcases encodeCommand_outcome b s with ⟨hs, -⟩ | ⟨-, hissued, -⟩
  · exact absurd hs h
  · exact hissued

/-- The terminator is the eleventh byte at most. -/
theorem commandWrites_length_le_eleven (b : Base) (s : State) : (commandWrites b s).length ≤ 11 := by
  have hdigits := digits_le_ten b s
  have hterm := termCount_le_one s
  rw [commandWrites_length]
  omega

/-- The `k`-th write goes to the address at offset `k`, modulo 2^32. -/
theorem commandWrites_address_getElem? (b : Base) (s : State) {k : Nat}
    (hk : k < (commandWrites b s).length) :
    ((commandWrites b s).map fun w => w.1.toNat)[k]? = some ((s.dst.toNat + k) % 2 ^ 32) := by
  rw [commandWrites_length] at hk
  rw [List.getElem?_map, commandWrites_getElem?, if_pos hk, Option.map_some, bufferAddr_toNat]

/-- Settles O35: the writes of a success are `commandWrites`, at the offsets 0, 1, 2 and so on, and different
offsets below 2^32 are different addresses (`commandWrites_nodup`). -/
theorem writesAscendEachOffsetOnce : Obligations.WritesAscendEachOffsetOnce := by
  unfold Obligations.WritesAscendEachOffsetOnce
  intro i s
  refine ⟨_, exec_eq i s, fun hs => ?_, encodeCommand_issued_of_not_succeeds⟩
  have hcap := encodeCommand_issued_length_le_cap i.base s
  rw [encodeCommand_issued_of_succeeds hs] at hcap ⊢
  exact ⟨commandWrites_length i.base s, hcap, commandWrites_length_le_eleven i.base s,
    fun _ => commandWrites_address_getElem? i.base s, commandWrites_nodup i.base s⟩

/-! ### Memories in canonical form are equal when every read agrees -/

theorem Memory.wf_pairwise {m : Memory} (hm : Memory.wf m = true) :
    m.Pairwise fun c d => c.1 < d.1 := by
  induction m with
  | nil => exact List.Pairwise.nil
  | cons c m ih => exact List.Pairwise.cons (Memory.wf_head_lt hm) (ih (Memory.wf_tail hm))

theorem Memory.wf_nodup {m : Memory} (hm : Memory.wf m = true) : m.Nodup :=
  (Memory.wf_pairwise hm).imp fun hlt heq => Nat.ne_of_lt hlt (congrArg Prod.fst heq)

theorem Memory.wf_mem_bound {m : Memory} (hm : Memory.wf m = true) {c : Host.Cell} (hc : c ∈ m) :
    c.1 < 2 ^ 32 := by
  induction m with
  | nil => cases hc
  | cons d m ih =>
    rcases List.mem_cons.1 hc with rfl | hc
    · exact Memory.wf_bound hm
    · exact ih (Memory.wf_tail hm) hc

/-- The entries of a memory in canonical form are what its reads answer. -/
theorem Memory.mem_iff_read {m : Memory} (hm : Memory.wf m = true) (c : Host.Cell) :
    c ∈ m ↔ c.1 < 2 ^ 32 ∧ m.read (BitVec.ofNat 32 c.1) = some c.2 := by
  by_cases hc : c.1 < 2 ^ 32
  · rw [Memory.read_eq_some hm, BitVec.toNat_ofNat, Nat.mod_eq_of_lt hc]
    exact (and_iff_right hc).symm
  · exact iff_of_false (fun h => hc (Memory.wf_mem_bound hm h)) fun h => hc h.1

/-- Equal reads make equal data: the entries are the same, and both lists have them in rising order. -/
theorem Memory.eq_of_read_eq {m m' : Memory} (hm : Memory.wf m = true) (hm' : Memory.wf m' = true)
    (h : ∀ a, m.read a = m'.read a) : m = m' := by
  have hentries : ∀ c, c ∈ m ↔ c ∈ m' := fun c => by
    rw [Memory.mem_iff_read hm, Memory.mem_iff_read hm', h]
  have hperm : m.Perm m' :=
    (List.perm_ext_iff_of_nodup (Memory.wf_nodup hm) (Memory.wf_nodup hm')).2 hentries
  exact hperm.eq_of_pairwise (fun _ _ _ _ hlt hgt => absurd hlt (Nat.lt_asymm hgt))
    (Memory.wf_pairwise hm) (Memory.wf_pairwise hm')

/-- Writing the same bytes again, each address once, changes nothing (20_memory.md R65). -/
theorem Memory.writeAll_writeAll {m : Memory} {ws : List (Addr × Byte)} (hm : Memory.wf m = true)
    (hnd : (ws.map Prod.fst).Nodup) : (m.writeAll ws).writeAll ws = m.writeAll ws := by
  have hwf := Memory.writeAll_wf ws hm
  refine Memory.eq_of_read_eq (Memory.writeAll_wf ws hwf) hwf fun a => ?_
  by_cases ha : ∃ w ∈ ws, w.1 = a
  · obtain ⟨w, hw, rfl⟩ := ha
    rw [Memory.read_writeAll_of_mem hw hnd, Memory.read_writeAll_of_mem hw hnd]
  · exact Memory.read_writeAll_of_not_mem fun w hw haddr => ha ⟨w, hw, haddr⟩

/-! ### A command run again (20_memory.md R65) -/

theorem fillScratch_fillScratch (b v : Nat) (u : Bool) (sc : Vector Byte Config.scratchDepth) (n : Nat) :
    fillScratch b v u (fillScratch b v u sc n) n = fillScratch b v u sc n := by
  refine Vector.ext fun i hi => Option.some.inj ?_
  simp only [← Vector.getElem?_eq_getElem, fillScratch_getElem?]
  by_cases h : i < n ∧ i < Config.scratchDepth
  · simp only [if_pos h]
  · simp only [if_neg h]

/-- Extraction leaves the registers as a second extraction of the same value finds and leaves them. -/
theorem State.extracted_extracted (s : State) (b : Base) :
    (s.extracted b).extracted b = s.extracted b := by
  have hscratch := fillScratch_fillScratch b.radix s.value.toNat s.upper s.scratch (digits b s)
  exact congrArg (fun sc => { s.extracted b with scratch := sc }) hscratch

/-- The writes of a command, repeated by a second one that begins with nothing issued. -/
theorem State.copiedOut_again {s : State} (b : Base) (hm : Memory.wf s.mem = true) :
    (((s.beginCommand b).copiedOut b).beginCommand b).copiedOut b = (s.beginCommand b).copiedOut b := by
  have hmem := Memory.writeAll_writeAll hm (commandWrites_nodup b s)
  exact congrArg (fun m => { (s.beginCommand b).copiedOut b with mem := m }) hmem

theorem encodeCommand_of_badDestination {b : Base} {s : State} (h : s.badDestination = true) :
    encodeCommand b s = (s.beginCommand b).raiseFail .invalidDestination := by
  simp [encodeCommand, h]

theorem encodeCommand_of_noRoom {b : Base} {s : State} (hb : s.badDestination = false)
    (hn : s.cap.toNat < digits b s + s.termCount) :
    encodeCommand b s = ((s.beginCommand b).extracted b).raiseFail .capacityExceeded := by
  simp [encodeCommand, hb, hn]

/-- A command meets the same case when it is run again, and does there what it has done. -/
theorem encodeCommand_encodeCommand (b : Base) {s : State} (hm : Memory.wf s.mem = true) :
    encodeCommand b (encodeCommand b s) = encodeCommand b s := by
  rcases encodeCommand_cases b s with ⟨hb, h⟩ | ⟨hb, hn, h⟩ | ⟨hb, hn, h⟩
  · rw [h]
    exact encodeCommand_of_badDestination hb
  · rw [h]
    calc encodeCommand b (((s.beginCommand b).extracted b).raiseFail .capacityExceeded)
      _ = (((s.beginCommand b).extracted b).extracted b).raiseFail .capacityExceeded :=
        encodeCommand_of_noRoom hb hn
      _ = ((s.beginCommand b).extracted b).raiseFail .capacityExceeded := by
        rw [State.extracted_extracted]
  · have hs : Succeeds b s := ⟨(badDestination_eq_false.1 hb).1, hn⟩
    rw [h]
    calc encodeCommand b
          ((((s.beginCommand b).extracted b).copiedOut b).finish (BitVec.ofNat 4 (digits b s)))
      _ = ((((((s.beginCommand b).extracted b).extracted b).copiedOut b).beginCommand b).copiedOut b).finish
            (BitVec.ofNat 4 (digits b s)) := encodeCommand_success hs
      _ = (((((s.extracted b).beginCommand b).copiedOut b).beginCommand b).copiedOut b).finish
            (BitVec.ofNat 4 (digits b s)) := by
        rw [State.extracted_extracted]; rfl
      _ = (((s.beginCommand b).extracted b).copiedOut b).finish (BitVec.ofNat 4 (digits b s)) := by
        rw [State.copiedOut_again b (s := s.extracted b) hm]; rfl

/-- Settles O41: both commands are `encodeCommand`, which a second run leaves as it is; the canonical form makes
the memory with the same bytes the same data. -/
theorem commandIsIdempotent : Obligations.CommandIsIdempotent := by
  unfold Obligations.CommandIsIdempotent
  intro i s t hm hexec
  rw [exec_eq] at hexec ⊢
  cases hexec
  rw [encodeCommand_encodeCommand i.base hm]

end Sys2Proof.Machine
end

section
/-! The command map over all 32-bit words, reserved words at both levels, and the host port by word offset
(30_encoding.md R70 to R77, 60_exceptions.md R154). -/

namespace Sys2Proof

/-! ### The decoder compares all 32 bits (30_encoding.md R75, R76) -/

theorem encode_toNat (i : Instr) : (encode i).toNat = (opOf i).toNat := by cases i <;> rfl

theorem opOf_inj {i j : Instr} : opOf i = opOf j ↔ i = j := by cases i <;> cases j <;> decide

theorem decode_of_zeroField_ne {w : Word} (h : zeroField w ≠ 0) :
    decode w = .reserved (.zeroField (zeroField w)) := by
  rw [decode, if_pos h]

theorem decode_eq_instr_iff_opField {w : Word} (h : zeroField w = 0) (i : Instr) :
    decode w = .instr i ↔ opField w = opOf i := by
  rw [decode, if_neg (fun hne => hne h)]
  split
  next hop => rw [hop, Decoded.instr.injEq]; exact (opOf_inj (i := .enchex)).symm
  next hhex =>
    split
    next hop => rw [hop, Decoded.instr.injEq]; exact (opOf_inj (i := .encdec)).symm
    next hdec =>
      refine iff_of_false nofun ?_
      cases i
      · exact hhex
      · exact hdec

/-- A word is its two fields. -/
theorem eq_encode_iff (w : Word) (i : Instr) : w = encode i ↔ zeroField w = 0 ∧ opField w = opOf i := by
  rw [← BitVec.toNat_inj, encode_toNat, opField_eq_iff, Decidable.not_iff_not.1 (zeroField_ne_zero_iff w)]
  have hop := (opOf i).isLt
  omega

/-- Each command has one word and no other decodes to it. -/
theorem decode_eq_instr_iff (w : Word) (i : Instr) : decode w = .instr i ↔ w = encode i := by
  rw [eq_encode_iff]
  by_cases hz : zeroField w = 0
  · rw [decode_eq_instr_iff_opField hz, and_iff_right hz]
  · rw [decode_of_zeroField_ne hz]
    exact iff_of_false nofun fun h => hz h.1

/-- The words outside the map are reserved. -/
theorem decode_reserved_of_ne {w : Word} (hhex : w ≠ 0x00000001) (hdec : w ≠ 0x00000002) :
    ∃ why, decode w = .reserved why := by
  cases h : decode w with
  | reserved why => exact ⟨why, rfl⟩
  | instr i =>
    have hw := (decode_eq_instr_iff w i).1 h
    cases i
    · exact absurd hw hhex
    · exact absurd hw hdec

/-! ### The word offset of a register (30_encoding.md R70) -/

/-- The word offset `off[4:2]` of a register. -/
def HostReg.offset : HostReg → BitVec 3
  | .value => 0
  | .dst => 1
  | .cap => 2
  | .cfg => 3
  | .cmd => 4
  | .len => 5
  | .status => 6
  | .reserved => 7

theorem HostReg.ofOff_eq_iff (off : BitVec 3) (r : HostReg) : HostReg.ofOff off = r ↔ off = r.offset := by
  cases r <;> decide +revert

end Sys2Proof

namespace Sys2Proof.Machine

/-- Settles O2: a word that decodes to a command is that command's word (`decode_eq_instr_iff`), and every outcome
of `encodeCommand` keeps the base it began with (`encodeCommand_ends`). -/
theorem decoderComparesAllBits : Obligations.DecoderComparesAllBits := by
  unfold Obligations.DecoderComparesAllBits
  refine ⟨fun w => decode_eq_instr_iff w .enchex, fun w => decode_eq_instr_iff w .encdec,
    radix_hex, radix_dec, fun s => ⟨⟨_, exec_eq .enchex s, rfl, ?_⟩, ⟨_, exec_eq .encdec s, rfl, ?_⟩⟩⟩
  · exact (encodeCommand_ends .hex s).2.2
  · exact (encodeCommand_ends .dec s).2.2

/-! ### A reserved word (30_encoding.md R77, 60_exceptions.md R154) -/

theorem launch_of_reserved {w : Word} {why : Reject} (h : decode w = .reserved why) (s : State) :
    launch w s = illegalCommand s := by
  rw [launch, h]

/-- A `CMD` write in one step is the command of its word (30_encoding.md R74). -/
theorem step_cmdWrite {s : State} {rest : List Input} {w : Word} (hp : s.phase = .idle)
    (hin : s.inputs = .txn (.write 4 w) :: rest) : step s = command w (s.take rest) := by
  rw [step_txn hp hin, hostTxn, if_pos ((HostReg.ofOff_eq_iff 4 .cmd).2 rfl)]

/-- An illegal command on an idle block changes the results and the port's records, and nothing else. -/
theorem illegalCommand_eq {s : State} (hp : s.phase = .idle) :
    illegalCommand s = { s with len := 0, status := 0x7, issued := [], resp := some .wrote } := by
  simp [illegalCommand, State.raiseFail, failStatus, FailCode.code, hp]

/-- Settles O9: a word outside the map is reserved, so the `CMD` write and the launch both end in
`illegalCommand`, which looks at neither `DST` nor `CAP`. -/
theorem reservedWordFailsWithCode3 : Obligations.ReservedWordFailsWithCode3 := by
  unfold Obligations.ReservedWordFailsWithCode3
  intro s rest w hp hin hhex hdec
  obtain ⟨why, hres⟩ := decode_reserved_of_ne hhex hdec
  have hstep : step s = .next (illegalCommand (s.take rest)) := by
    rcases hin with hin | hin
    · rw [step_cmdWrite hp hin, command_of_reserved hres]
    · rw [step_present hp hin, launch_of_reserved hres]
  rw [hstep, illegalCommand_eq (s := s.take rest) hp]
  rfl

/-! ### Host reads and writes by register (30_encoding.md R71, R72) -/

/-- A host write reaches the four operand registers only; `CFG` keeps the low two bits. -/
theorem State.regWrite_eq (s : State) (r : HostReg) (wdata : Word) :
    s.regWrite r wdata = { s with
      value := if r = .value then wdata else s.value
      dst := if r = .dst then wdata else s.dst
      cap := if r = .cap then wdata else s.cap
      cfg := if r = .cfg then BitVec.ofNat 2 (wdata.toNat % 4) else s.cfg } := by
  have hcfg : wdata.extractLsb' 0 2 = BitVec.ofNat 2 (wdata.toNat % 4) := by
    apply BitVec.eq_of_toNat_eq
    simp
  cases r <;> simp [State.regWrite, hcfg]

/-- Settles O10: at offset 4 the step is the command; at every other offset it is `regWrite` of the register
there, whose one offset `HostReg.ofOff_eq_iff` gives. -/
theorem hostWriteStoresTheRegister : Obligations.HostWriteStoresTheRegister := by
  unfold Obligations.HostWriteStoresTheRegister
  intro s rest off wdata hp hin
  constructor
  · intro hoff
    have hcmd : HostReg.ofOff off ≠ .cmd := fun h => hoff ((HostReg.ofOff_eq_iff off .cmd).1 h)
    rw [step_txn hp hin, hostTxn, if_neg hcmd, hostWriteTxn, State.regWrite_eq]
    simp only [HostReg.ofOff_eq_iff]
    rfl
  · rintro rfl
    exact step_cmdWrite hp hin

/-- What a host read returns, as a number: the bits that a register does not implement read 0. -/
theorem State.hostRead_toNat (s : State) (r : HostReg) :
    (s.hostRead r).toNat = if r = .value then s.value.toNat else if r = .dst then s.dst.toNat
      else if r = .cap then s.cap.toNat else if r = .cfg then s.cfg.toNat
      else if r = .len then s.len.toNat else if r = .status then s.status.toNat else 0 := by
  cases r <;> simp [State.hostRead, -BitVec.toNat_setWidth, BitVec.toNat_setWidth_of_le]

/-- Settles O11: the step puts `hostRead` of the register at the offset into `resp` and keeps the rest. -/
theorem hostReadReturnsTheRegister : Obligations.HostReadReturnsTheRegister := by
  unfold Obligations.HostReadReturnsTheRegister
  intro s rest off hp hin
  refine ⟨s.hostRead (HostReg.ofOff off), step_txn hp hin, ?_⟩
  rw [State.hostRead_toNat]
  simp only [HostReg.ofOff_eq_iff]
  rfl

end Sys2Proof.Machine
end

section
/-! The character codes of the look-up table (40_digit_lut.md R91). -/

namespace Sys2Proof.Machine

/-- A digit value added to a code leaves room in the byte. -/
theorem toNat_add_digit {c : Byte} (hc : c.toNat ≤ 0xF0) (d : BitVec 4) :
    (c + d.setWidth 8).toNat = c.toNat + d.toNat := by
  have hd : (d.setWidth 8).toNat = d.toNat := BitVec.toNat_setWidth_of_le (by decide)
  rw [BitVec.toNat_add_of_lt (by omega), hd]

/-- The closed form of 40 R91, as a number. -/
theorem lut_toNat (d : BitVec 4) (u : Bool) :
    (lut d u).toNat =
      if d.toNat ≤ 9 then 0x30 + d.toNat else if u then 0x37 + d.toNat else 0x57 + d.toNat := by
  have hle : d ≤ 9 ↔ d.toNat ≤ 9 := BitVec.le_def
  rw [lut]
  by_cases h : d.toNat ≤ 9
  · rw [if_pos (hle.2 h), if_pos h]
    exact toNat_add_digit (by decide) d
  · rw [if_neg (mt hle.1 h), if_neg h]
    cases u
    case false => exact toNat_add_digit (c := 0x57) (by decide) d
    case true => exact toNat_add_digit (c := 0x37) (by decide) d

/-- A digit byte is a 7-bit code (40 R91). -/
theorem lut_toNat_lt (d : BitVec 4) (u : Bool) : (lut d u).toNat < 0x80 := by
  have hlt : d.toNat < 16 := d.isLt
  rw [lut_toNat]
  by_cases h : d.toNat ≤ 9
  · rw [if_pos h]
    omega
  · rw [if_neg h]
    cases u
    case false => exact (by omega : 0x57 + d.toNat < 0x80)
    case true => exact (by omega : 0x37 + d.toNat < 0x80)

/-- Settles O17: the branches of `lut_toNat`, and the bound `lut_toNat_lt`. -/
theorem lutCharacterCodes : Obligations.LutCharacterCodes := by
  unfold Obligations.LutCharacterCodes
  refine ⟨fun d u h => ?_, fun d h => ?_, fun d h => ?_, lut_toNat_lt⟩
  · rw [lut_toNat, if_pos h]
  · rw [lut_toNat, if_neg (by omega)]
    rfl
  · rw [lut_toNat, if_neg (by omega), if_pos rfl]

end Sys2Proof.Machine
end

section
/-! Digit counts by range, the canonical digit string, and the extraction loop (41_accumulator.md R100 to R107). -/

namespace Sys2Proof.Machine

open Safety

/-! ### Digit counts by range (41_accumulator.md R106, R107) -/

/-- The digit count is `n` exactly in row `n` of the table: from `b^(n-1)`, or from 0 in the first row, to below
`b^n`. -/
theorem ndig_eq_iff (b : Base) {v n : Nat} (hv : v < 2 ^ 32) (hn : 1 ≤ n) :
    ndig b.radix v = n ↔ (n = 1 ∨ b.radix ^ (n - 1) ≤ v) ∧ v < b.radix ^ n := by
  obtain ⟨hpos, hlt, hmin⟩ := ndig_spec b hv
  constructor
  · rintro rfl
    refine ⟨?_, hlt⟩
    by_cases h1 : ndig b.radix v = 1
    · exact .inl h1
    · exact .inr (hmin _ (by omega) (by omega))
  · rintro ⟨hrow, hlt_n⟩
    refine Nat.le_antisymm (ndig_le_of_lt_pow b hv hn hlt_n) (Nat.le_of_not_lt fun hless => ?_)
    have hle : b.radix ^ (n - 1) ≤ v := hrow.resolve_left (by omega)
    have hpow : b.radix ^ ndig b.radix v ≤ b.radix ^ (n - 1) :=
      Nat.pow_le_pow_right (radix_pos b) (by omega)
    omega

/-- Settles O20: the rows by `ndig_eq_iff`, the bounds by `ndig_pos` and `ndig_hex_le`. -/
theorem hexDigitCountByRange : Obligations.HexDigitCountByRange := by
  unfold Obligations.HexDigitCountByRange
  exact fun v hv => ⟨ndig_pos .hex hv, ndig_hex_le hv, fun n hn _ => ndig_eq_iff .hex hv hn⟩

/-- Settles O21: the rows by `ndig_eq_iff`, the bounds by `ndig_pos` and `ndig_le_ten`. -/
theorem decDigitCountByRange : Obligations.DecDigitCountByRange := by
  unfold Obligations.DecDigitCountByRange
  exact fun v hv => ⟨ndig_pos .dec hv, ndig_le_ten .dec hv, fun n hn _ => ndig_eq_iff .dec hv hn⟩

/-! ### The digit string (41_accumulator.md R104) -/

/-- The lowest `n` digits make the value modulo `b^n`. -/
theorem sum_dig_mul_pow (b v n : Nat) :
    ((List.range n).map fun i => dig b v i * b ^ i).sum = v % b ^ n := by
  induction n with
  | zero => simp [Nat.mod_one]
  | succ n ih =>
    rw [List.range_succ, List.map_append, List.sum_append, ih, Nat.mod_pow_succ]
    simp [dig, Nat.mul_comm]

/-- The digit of highest weight is what is left above all the others. -/
theorem dig_of_lt_pow_succ {b v i : Nat} (h : v < b ^ (i + 1)) : dig b v i = v / b ^ i :=
  Nat.mod_eq_of_lt (Nat.div_lt_of_lt_mul h)

theorem leading_dig_ne_zero (b : Base) {v : Nat} (hv : v < 2 ^ 32) (h0 : v ≠ 0) :
    dig b.radix v (ndig b.radix v - 1) ≠ 0 := by
  have hpos := ndig_pos b hv
  rw [dig_of_lt_pow_succ (by rw [Nat.sub_add_cancel hpos]; exact lt_pow_ndig b hv)]
  rcases Nat.eq_zero_or_pos (ndig b.radix v - 1) with hone | hmore
  · simpa [hone] using h0
  · exact div_pow_ne_zero_of_lt_ndig b hv hmore (by omega)

/-- Settles O19: the digits make `v` modulo `b^ndig`, which is `v`; the length is least by
`ndig_le_of_lt_pow`. -/
theorem digitStringIsCanonical : Obligations.DigitStringIsCanonical := by
  unfold Obligations.DigitStringIsCanonical
  intro b v hv
  have hlt := lt_pow_ndig b hv
  refine ⟨?_, ndig_pos b hv, hlt, fun n hn => ndig_le_of_lt_pow b hv hn,
    leading_dig_ne_zero b hv, fun i => rfl⟩
  rw [sum_dig_mul_pow, Nat.mod_eq_of_lt hlt]

/-! ### Launch (41_accumulator.md R100) -/

theorem launch_encode (i : Instr) (s : State) : launch (encode i) s = launchBase i.base s := by
  rw [launch, (decode_eq_instr_iff (encode i) i).2 rfl]

/-- The base of a command, read off its word (30_encoding.md R76). -/
theorem base_of_encode (i : Instr) :
    (if encode i = 0x00000002 then Base.dec else .hex) = i.base := by
  cases i <;> rfl

/-- The words of the map are the two that `encode` gives. -/
theorem exists_encode_of_mapWord {w : Word} (h : ¬ (w ≠ 0x00000001 ∧ w ≠ 0x00000002)) :
    ∃ i, w = encode i := by
  by_cases hhex : w = 0x00000001
  · exact ⟨.enchex, hhex⟩
  · exact ⟨.encdec, Decidable.not_not.1 fun hdec => h ⟨hhex, hdec⟩⟩

/-- A launch that the destination test refuses, on an idle block. -/
theorem launchBase_bad_eq (b : Base) {s : State} (hp : s.phase = .idle) (h : s.badDestination = true) :
    launchBase b s = { s with issued := [], base := b, len := 0, status := 0x5, resp := some .wrote } := by
  rw [launchBase_bad b s h, encodeCommand_of_badDestination h]
  simp [State.raiseFail, State.beginCommand, failStatus, FailCode.code, hp]

/-- A launch that begins the extraction. -/
theorem launchBase_good_eq (b : Base) {s : State} (h : s.badDestination = false) :
    launchBase b s = { s with issued := [], base := b, acc := s.value, cnt := 0, phase := .extract } := by
  simp [launchBase, State.beginCommand, h]

/-- Settles O44: a reserved word ends in `illegalCommand`; a word of the map is `launchBase` of its base, refused
or begun by the test on the destination. -/
theorem launchMicroStep : Obligations.LaunchMicroStep := by
  unfold Obligations.LaunchMicroStep
  intro s rest w hp hin
  rw [step_present hp hin]
  by_cases hw : w ≠ 0x00000001 ∧ w ≠ 0x00000002
  · obtain ⟨why, hres⟩ := decode_reserved_of_ne hw.1 hw.2
    rw [if_pos hw, launch_of_reserved hres, illegalCommand_eq (s := s.take rest) hp]
    rfl
  · obtain ⟨i, rfl⟩ := exists_encode_of_mapWord hw
    rw [if_neg hw, launch_encode, base_of_encode]
    by_cases hdst : s.dst = 0 ∨ s.cap = 0
    · rw [if_pos hdst,
        launchBase_bad_eq i.base (s := s.take rest) hp (badDestination_eq_true.2 hdst)]
      rfl
    · rw [if_neg hdst, launchBase_good_eq i.base (s := s.take rest)
        (badDestination_eq_false.2 (not_or.1 hdst))]
      rfl

/-! ### One extraction step (41_accumulator.md R101, R102) -/

/-- The extraction step in either base as a whole next state: the remainder by the radix is stored, the quotient
is kept, and extraction goes on while the quotient is not 0. -/
theorem step_extract {s : State} (hp : s.phase = .extract) (hu : undisturbed 1 s.inputs = true)
    (h : s.cnt.toNat < 10) :
    step s = .next { s with
      inputs := afterMicroStep s.inputs
      resp := none
      scratch := s.scratch.set s.cnt.toNat (lut (BitVec.ofNat 4 (s.acc.toNat % s.base.radix)) s.upper) h
      acc := BitVec.ofNat 32 (s.acc.toNat / s.base.radix)
      cnt := BitVec.ofNat 4 (s.cnt.toNat + 1)
      phase := if s.acc.toNat / s.base.radix ≠ 0 then .extract else .check } := by
  have hmicro : microStep (s.take (afterMicroStep s.inputs)) =
      extractStep (s.take (afterMicroStep s.inputs)) := by
    rw [microStep, State.take_phase, hp]
  have hquot : BitVec.ofNat 32 (s.acc.toNat / s.base.radix) ≠ 0 ↔ s.acc.toNat / s.base.radix ≠ 0 := by
    have hlt : s.acc.toNat / s.base.radix < 2 ^ 32 :=
      Nat.lt_of_le_of_lt (Nat.div_le_self _ _) s.acc.isLt
    rw [Ne, ← BitVec.toNat_inj, BitVec.toNat_ofNat, Nat.mod_eq_of_lt hlt]
    rfl
  have hcnt : s.cnt + 1 = BitVec.ofNat 4 (s.cnt.toNat + 1) := by
    rw [← counter_ofNat_succ, BitVec.ofNat_toNat, BitVec.setWidth_eq]
  rw [step_undisturbed (by rw [hp]; decide) hu, hmicro, extractStep_eq,
    storeDigit_of_lt (s := s.take (afterMicroStep s.inputs)) h]
  simp only [State.take_acc, State.take_base, State.take_cnt, State.take_scratch, State.take_upper, hquot, hcnt]
  rfl

/-- Settles O45: `step_extract` at radix 16. -/
theorem hexExtractionStep : Obligations.HexExtractionStep := by
  unfold Obligations.HexExtractionStep
  intro s hp hbase hu h
  simp only [step_extract hp hu h, hbase, radix_hex]

/-- The character of a decimal digit does not depend on the case (40_digit_lut.md R91). -/
theorem lut_of_lt_ten {d : Nat} (hd : d < 10) (u : Bool) :
    lut (BitVec.ofNat 4 d) u = BitVec.ofNat 8 (0x30 + d) := by
  have hdigit : (BitVec.ofNat 4 d).toNat = d := counter_toNat (Nat.le_of_lt hd)
  apply BitVec.eq_of_toNat_eq
  rw [lut_toNat, hdigit, if_pos (by omega), BitVec.toNat_ofNat]
  omega

/-- Settles O46: `step_extract` at radix 10, where every digit has a decimal character. -/
theorem decimalExtractionStep : Obligations.DecimalExtractionStep := by
  unfold Obligations.DecimalExtractionStep
  intro s hp hbase hu h
  have hchar := lut_of_lt_ten (Nat.mod_lt s.acc.toNat (by decide : 0 < 10)) s.upper
  simp only [step_extract hp hu h, hbase, radix_dec, hchar]

/-! ### The extraction loop (41_accumulator.md R105) -/

theorem extractState_take (b : Base) (s : State) (r : List Input) (k : Nat) :
    (extractState b s k).take r = extractState b (s.take r) k := rfl

/-- The host port is held while a command extracts (30_encoding.md R74). -/
theorem extractState_phase_ne_idle (b : Base) (s : State) (k : Nat) :
    (extractState b s k).phase ≠ .idle := by
  rw [extractState]
  split
  · exact nofun
  · exact nofun

/-- Inside a command the step from `k` digits extracted to `k + 1`, whatever waits in the inputs. -/
theorem step_extractState (b : Base) (s : State) {rest : List Input} {k : Nat} (hk : k < digits b s)
    (hu : undisturbed 1 rest = true) :
    step (extractState b (s.take rest) k) =
      .next (extractState b (s.take (afterMicroStep rest)) (k + 1)) := by
  rw [step_undisturbed (extractState_phase_ne_idle b (s.take rest) k) hu, extractState_take]
  exact microStep_extractState b (s.take (afterMicroStep rest)) hk

/-- The loop invariant of 41 R105: `k` undisturbed steps after launch the block is in the closed form
`extractState`. -/
theorem run_extractState (b : Base) (s : State) {rest : List Input} {k : Nat} (hk : k ≤ digits b s)
    (hu : undisturbed k rest = true) :
    Host.Core.run Sys2Proof.core k (extractState b (s.take rest) 0) =
      .next (extractState b (s.take (afterMicroSteps k rest)) k) := by
  induction k with
  | zero => rfl
  | succ k ih =>
    have hrun := ih (Nat.le_of_succ_le hk) (undisturbed_mono hu (Nat.le_succ k))
    rw [run_add k 1 hrun, run_succ 0 (step_extractState b s hk (undisturbed_afterMicroSteps hu)),
      afterMicroSteps_succ]
    rfl

/-- The step that launches a command whose destination passes the test. -/
theorem step_launch {i : Instr} {s : State} {rest : List Input} (hp : s.phase = .idle)
    (hb : s.badDestination = false) :
    step { s with inputs := .present (encode i) :: rest } =
      .next (extractState i.base (s.take rest) 0) := by
  have hstep := step_present (s := { s with inputs := .present (encode i) :: rest }) hp rfl
  rw [hstep, launch_encode]
  exact congrArg Host.Outcome.next (launchBase_good i.base (s.take rest) hb)

theorem readScratch_fillScratch (b v : Nat) (u : Bool) (sc : Vector Byte Config.scratchDepth) {n j : Nat}
    (hn : n ≤ Config.scratchDepth) (hj : j < n) :
    readScratch (fillScratch b v u sc n) j = some (digitChar b v j u) := by
  rw [readScratch, fillScratch_getElem?, if_pos ⟨hj, Nat.lt_of_lt_of_le hj hn⟩]

theorem extractState_acc_eq_zero (b : Base) (s : State) : (extractState b s (digits b s)).acc = 0 := by
  rw [extractState_digits]
  rfl

/-- Settles O50: the launch step and `k` extraction steps end in `extractState` (`run_extractState`), whose fields
are read off. -/
theorem extractionLoopInvariant : Obligations.ExtractionLoopInvariant := by
  unfold Obligations.ExtractionLoopInvariant
  intro i s rest k hp hu hdst hcap hk
  have hdepth : k ≤ Config.scratchDepth := Nat.le_trans hk (digits_le_ten i.base s)
  refine ⟨extractState i.base (s.take (afterMicroSteps k rest)) k, ?_, acc_toNat i.base s k,
    counter_toNat hdepth, fun j hj => readScratch_fillScratch _ _ _ _ hdepth hj, rfl, ?_,
    rfl, rfl, rfl, rfl⟩
  · rw [run_succ k (step_launch hp (badDestination_eq_false.2 ⟨hdst, hcap⟩))]
    exact run_extractState i.base s hk hu
  · rintro rfl
    exact extractState_acc_eq_zero i.base (s.take (afterMicroSteps (digits i.base s) rest))

end Sys2Proof.Machine
end

section
/-! The buffer-write micro-steps as whole next states, and what a command leaves in the buffer, in `LEN` and
everywhere else (42_buffer_write.md R115 to R123). -/

namespace Sys2Proof.Machine

open Safety

/-! ### What the buffer holds after a success (42_buffer_write.md R122) -/

theorem encodeCommand_status_of_succeeds {b : Base} {s : State} (h : Succeeds b s) :
    (encodeCommand b s).status = successStatus := by
  rw [encodeCommand_success h, State.finish_status]

theorem encodeCommand_len_of_succeeds {b : Base} {s : State} (h : Succeeds b s) :
    (encodeCommand b s).len.toNat = digits b s := by
  rw [encodeCommand_success h, State.finish_len, digits_toNat]

theorem encodeCommand_mem_of_succeeds {b : Base} {s : State} (h : Succeeds b s) :
    (encodeCommand b s).mem = s.mem.writeAll (commandWrites b s) := by
  simp [encodeCommand_success h]

theorem encodeCommand_read_digit {b : Base} {s : State} (h : Succeeds b s) {j : Nat} (hj : j < digits b s) :
    (encodeCommand b s).mem.read (s.bufferAddr j) =
      some (digitChar b.radix s.value.toNat (digits b s - 1 - j) s.upper) := by
  rw [encodeCommand_mem_of_succeeds h, read_commandWrites b s s.mem (Nat.lt_add_right _ hj), if_pos hj]

theorem encodeCommand_read_terminator {b : Base} {s : State} (h : Succeeds b s) (ht : s.term = true) :
    (encodeCommand b s).mem.read (s.bufferAddr (digits b s)) = some Config.termByte := by
  have hk : digits b s < digits b s + s.termCount := by simp [State.termCount, ht]
  rw [encodeCommand_mem_of_succeeds h, read_commandWrites b s s.mem hk, if_neg (Nat.lt_irrefl _)]

/-- Settles O23: the buffer is read at the offsets of the digits and at the offset after them. -/
theorem bufferHoldsTheDigits : Obligations.BufferHoldsTheDigits := by
  unfold Obligations.BufferHoldsTheDigits
  intro i s hs
  have hlen := encodeCommand_len_of_succeeds hs
  refine ⟨_, exec_eq i s, encodeCommand_status_of_succeeds hs, hlen, ?_⟩
  rw [hlen]
  exact ⟨fun j => encodeCommand_read_digit hs, encodeCommand_read_terminator hs⟩

/-! ### What a command leaves unchanged (42_buffer_write.md R121) -/

theorem encodeCommand_mem_of_not_succeeds {b : Base} {s : State} (h : ¬ Succeeds b s) :
    (encodeCommand b s).mem = s.mem := by
  rcases encodeCommand_outcome b s with ⟨hs, -⟩ | ⟨-, -, hmem, -⟩
  · exact absurd hs h
  · exact hmem

/-- A command leaves the scratch array alone or fills it, by whether it is refused before extraction. -/
theorem encodeCommand_scratch_cases (b : Base) (s : State) :
    (encodeCommand b s).scratch = s.scratch ∨
    (encodeCommand b s).scratch =
      fillScratch b.radix s.value.toNat s.upper s.scratch (digits b s) := by
  rcases encodeCommand_cases b s with ⟨-, h⟩ | ⟨-, -, h⟩ | ⟨-, -, h⟩
  · exact .inl (h ▸ rfl)
  · exact .inr (h ▸ rfl)
  · exact .inr (h ▸ rfl)

/-- The scratch entries above the digits are stale (10_state.md R34). -/
theorem encodeCommand_readScratch_of_digits_le (b : Base) {s : State} {j : Nat} (hj : digits b s ≤ j) :
    readScratch (encodeCommand b s).scratch j = readScratch s.scratch j := by
  rcases encodeCommand_scratch_cases b s with h | h
  · rw [h]
  · rw [h, readScratch, fillScratch_getElem?, if_neg fun hlt => Nat.not_lt.2 hj hlt.1, readScratch]

/-- Settles O37: the registers by `encodeCommand_keeps`; a success writes at its own offsets only, a failure
nothing. -/
theorem commandFrame : Obligations.CommandFrame := by
  unfold Obligations.CommandFrame
  intro i s t hexec
  rw [exec_eq] at hexec
  cases hexec
  obtain ⟨hvalue, hdst, hcap, hcfg, hinputs, hfree⟩ := encodeCommand_keeps i.base s
  refine ⟨hvalue, hdst, hcap, hcfg, hinputs, hfree,
    fun j => encodeCommand_readScratch_of_digits_le i.base, fun hs a ha => ?_, fun hs a => ?_⟩
  · rw [encodeCommand_mem_of_succeeds hs, read_commandWrites_other i.base s s.mem ha]
  · rw [encodeCommand_mem_of_not_succeeds hs]

/-! ### `LEN` (42_buffer_write.md R120) -/

/-- The greatest digit count of each command (41_accumulator.md R109). -/
theorem digits_le_of_instr (i : Instr) (s : State) :
    digits i.base s ≤ if i = .enchex then 8 else 10 := by
  cases i
  case enchex => exact ndig_hex_le s.value.isLt
  case encdec => exact digits_le_ten .dec s

/-- Settles O38: a success has `LEN` = `digits` and writes `digits + TERM` bytes, at most `CAP`; a failure has
`LEN` = 0 and writes none. -/
theorem lengthBounds : Obligations.LengthBounds := by
  unfold Obligations.LengthBounds
  intro i s
  refine ⟨_, exec_eq i s, ?_, ?_, encodeCommand_len_le_issued_length i.base s,
    Nat.le_trans (encodeCommand_len_le_issued_length i.base s)
      (encodeCommand_issued_length_le_cap i.base s)⟩
  · intro hstatus
    rcases encodeCommand_outcome i.base s with ⟨-, hissued, -, hlen, -⟩ | ⟨-, -, -, -, hfail, -⟩
    · rw [hlen, hissued, commandWrites_length]
      exact ⟨digits_pos i.base s, digits_le_of_instr i s, rfl⟩
    · exact absurd hstatus hfail
  · intro hstatus
    rcases encodeCommand_outcome i.base s with ⟨-, -, -, -, hsuccess, -⟩ | ⟨-, hissued, -, hlen, -⟩
    · exact absurd hsuccess hstatus
    · exact ⟨hlen, hissued⟩

/-! ### The micro-steps from the check on (42_buffer_write.md R115 to R118) -/

theorem microStep_of_check {s : State} (hp : s.phase = .check) : microStep s = .next (checkStep s) := by
  rw [microStep, hp]

theorem microStep_of_write {s : State} (hp : s.phase = .write) : microStep s = writeStep s := by
  rw [microStep, hp]

theorem microStep_of_termw {s : State} (hp : s.phase = .termw) : microStep s = .next (termStep s) := by
  rw [microStep, hp]

/-- Settles O47: `need` is `CNT + TERM` without a wrap (`cap_lt_need`), and the check fails or goes on by it. -/
theorem capacityCheckStep : Obligations.CapacityCheckStep := by
  unfold Obligations.CapacityCheckStep
  intro s hp hu
  have hneed : (s.take (afterMicroStep s.inputs)).cap < (s.take (afterMicroStep s.inputs)).need ↔
      s.cnt.toNat + (if s.term then 1 else 0) > s.cap.toNat := by
    rw [cap_lt_need, State.take_termCount, termCount_eq]
    rfl
  rw [step_undisturbed (by rw [hp]; decide) hu, microStep_of_check (s := s.take _) hp, checkStep]
  simp only [hneed]
  rfl

/-- Settles O49: the terminator step writes at the counter's offset (`counter_addr`) and finishes. -/
theorem terminatorMicroStep : Obligations.TerminatorMicroStep := by
  unfold Obligations.TerminatorMicroStep
  intro s hp hu
  rw [step_undisturbed (by rw [hp]; decide) hu, microStep_of_termw (s := s.take _) hp, termStep, counter_addr]
  rfl

/-- After the digit byte `x` is written at offset `WIDX` and `WIDX` has counted it, before it is settled where the
write step goes (42_buffer_write.md R116). -/
def State.digitWritten (s : State) (x : Byte) : State :=
  { s.memWrite (s.bufferAddr s.widx.toNat) x with widx := s.widx + 1 }

theorem writeStep_of_readScratch {s : State} {x : Byte} (h : s.widx < s.cnt)
    (hx : readScratch s.scratch (s.cnt.toNat - 1 - s.widx.toNat) = some x) :
    writeStep s = .next (afterWrite (s.digitWritten x)) := by
  rw [writeStep, if_pos h, hx, counter_addr, State.digitWritten]

/-- A write step that does not fault has written the scratch entry it reads. -/
theorem writeStep_eq_next {s t : State} (h : writeStep s = .next t) :
    ∃ x, readScratch s.scratch (s.cnt.toNat - 1 - s.widx.toNat) = some x ∧
      t = afterWrite (s.digitWritten x) := by
  by_cases hlt : s.widx < s.cnt
  · cases hx : readScratch s.scratch (s.cnt.toNat - 1 - s.widx.toNat) with
    | none => simp [writeStep, hlt, hx] at h
    | some x =>
      rw [writeStep_of_readScratch hlt hx] at h
      exact ⟨x, rfl, (Host.Outcome.next.inj h).symm⟩
  · simp [writeStep, hlt] at h

/-- Where a write step goes on, as one state: `PHASE` by the digits left and `CFG.TERM`; the finish of 42 R118 after
the last byte when no terminator follows. -/
theorem afterWrite_eq (s : State) :
    afterWrite s = { s with
      phase := if s.widx < s.cnt then s.phase else if s.term then .termw else .idle
      len := if ¬ s.widx < s.cnt ∧ s.term = false then s.cnt else s.len
      status := if ¬ s.widx < s.cnt ∧ s.term = false then successStatus else s.status
      resp := if ¬ s.widx < s.cnt ∧ s.term = false then some .wrote else s.resp } := by
  by_cases hmore : s.widx < s.cnt
  · simp [afterWrite, hmore]
  · cases hterm : s.term
    case true => simp [afterWrite, hmore, hterm]
    case false => simp [afterWrite, hmore, hterm, State.finish]

@[simp] theorem afterWrite_mem (s : State) : (afterWrite s).mem = s.mem := by rw [afterWrite_eq]

@[simp] theorem afterWrite_issued (s : State) : (afterWrite s).issued = s.issued := by rw [afterWrite_eq]

@[simp] theorem afterWrite_widx (s : State) : (afterWrite s).widx = s.widx := by rw [afterWrite_eq]

/-- A write step raises no failure: it leaves `STATUS` or reports success. -/
theorem afterWrite_status (s : State) :
    (afterWrite s).status = s.status ∨ (afterWrite s).status = successStatus := by
  rw [afterWrite_eq]
  by_cases hlast : ¬ s.widx < s.cnt ∧ s.term = false
  · exact .inr (if_pos hlast)
  · exact .inl (if_neg hlast)

/-- Settles O48: the scratch entry exists, `WIDX` counts without a wrap, and `afterWrite_eq` says where the step
goes on. -/
theorem writeMicroStep : Obligations.WriteMicroStep := by
  unfold Obligations.WriteMicroStep
  intro s hp hu hlt hdepth
  obtain ⟨x, hx⟩ : ∃ x, s.scratch[s.cnt.toNat - 1 - s.widx.toNat]? = some x :=
    ⟨_, Vector.getElem?_eq_getElem (by show _ < 10; omega)⟩
  have hstep : step s = .next (afterWrite ((s.take (afterMicroStep s.inputs)).digitWritten x)) := by
    rw [step_undisturbed (by rw [hp]; decide) hu, microStep_of_write (s := s.take _) hp]
    exact writeStep_of_readScratch (BitVec.lt_def.2 hlt) hx
  have hsucc : (s.widx + 1).toNat = s.widx.toNat + 1 := counter_succ (by omega)
  have hmore : s.widx + 1 < s.cnt ↔ s.widx.toNat + 1 < s.cnt.toNat := by rw [BitVec.lt_def, hsucc]
  have hlast : ¬ s.widx + 1 < s.cnt ↔ s.widx.toNat + 1 = s.cnt.toNat := by rw [hmore]; omega
  refine ⟨x, _, hx, hstep, afterWrite_mem _, afterWrite_issued _, ?_, ?_⟩
  · rw [afterWrite_widx]
    exact hsucc
  · simp only [← hlast, ← hmore, ← hp]
    rw [afterWrite_eq]
    rfl

/-! ### Failures (42_buffer_write.md R123) -/

/-- What makes the next step no micro-step: a reset or another agent's write. -/
theorem undisturbed_or_rst_or_agent (inputs : List Input) :
    undisturbed 1 inputs = true ∨ (∃ rest, inputs = .rst :: rest) ∨
      ∃ a x rest, inputs = .agent a x :: rest := by
  cases inputs with
  | nil => exact .inl rfl
  | cons input rest =>
    cases input with
    | tick => exact .inl rfl
    | txn => exact .inl rfl
    | present => exact .inl rfl
    | rst => exact .inr (.inl ⟨rest, rfl⟩)
    | agent a x => exact .inr (.inr ⟨a, x, rest, rfl⟩)

theorem step_agent {s : State} {rest : List Input} {a : Addr} {x : Byte}
    (hin : s.inputs = .agent a x :: rest) : step s = .next ((s.take rest).agentWrite a x) := by
  rw [step, hin]

/-- While a command is in progress and no reset comes, a step is the micro-step or another agent's write. -/
theorem step_busy_cases {s : State} (hp : s.phase ≠ .idle) (hrst : ∀ rest, s.inputs ≠ .rst :: rest) :
    step s = microStep (s.take (afterMicroStep s.inputs)) ∨
    ∃ a x rest, step s = .next ((s.take rest).agentWrite a x) := by
  rcases undisturbed_or_rst_or_agent s.inputs with hu | ⟨rest, hin⟩ | ⟨a, x, rest, hin⟩
  · exact .inl (step_undisturbed hp hu)
  · exact absurd hin (hrst rest)
  · exact .inr ⟨a, x, rest, step_agent hin⟩

/-- No micro-step raises a failure once `PHASE` has reached `WRITE`. -/
theorem microStep_status_of_writing {s t : State} (hp : s.phase = .write ∨ s.phase = .termw)
    (h : microStep s = .next t) : t.status = s.status ∨ t.status = successStatus := by
  rcases hp with hp | hp
  · rw [microStep_of_write hp] at h
    obtain ⟨x, -, rfl⟩ := writeStep_eq_next h
    exact afterWrite_status (s.digitWritten x)
  · rw [microStep_of_termw hp] at h
    cases h
    exact .inr (State.finish_status _ _)

/-- Every `CMD` write ends in success, or with nothing written and `LEN` = 0. -/
theorem command_of_status_ne_success {w : Word} {s t : State} (h : command w s = .next t)
    (hstatus : t.status ≠ successStatus) : t.issued = [] ∧ t.mem = s.mem ∧ t.len = 0 := by
  rcases command_cases w s with ⟨i, -, hw⟩ | ⟨why, -, hw⟩
  · rw [hw] at h
    cases h
    rcases encodeCommand_outcome i.base s with ⟨-, -, -, -, hsuccess, -⟩ | ⟨-, hissued, hmem, hlen, -⟩
    · exact absurd hsuccess hstatus
    · exact ⟨hissued, hmem, hlen⟩
  · rw [hw] at h
    cases h
    exact ⟨rfl, rfl, rfl⟩

/-- Settles O36: the command level by its outcomes; a step in `WRITE` or `TERMW` without a reset is another agent's
write, which keeps `STATUS`, or the micro-step (`microStep_status_of_writing`). -/
theorem failureWritesNothing : Obligations.FailureWritesNothing := by
  unfold Obligations.FailureWritesNothing
  refine ⟨fun w s t => command_of_status_ne_success, fun s t hp hrst hstep => ?_⟩
  have hbusy : s.phase ≠ .idle := by
    rcases hp with hp | hp
    · rw [hp]; decide
    · rw [hp]; decide
  rcases step_busy_cases hbusy hrst with h | ⟨a, x, rest, h⟩
  · rw [h] at hstep
    exact microStep_status_of_writing (s := s.take (afterMicroStep s.inputs)) hp hstep
  · rw [h] at hstep
    cases hstep
    exact .inl rfl

end Sys2Proof.Machine
end

section
/-! The commands as functions of their operands: the results in closed form, the exact condition for success, the
strings of particular values, the string parsed back, and the agreement of the two levels (43_commands.md R130 to
R139). -/

namespace Sys2Proof.Machine

open Safety

/-! ### The results of a command in closed form (43_commands.md R130) -/

/-- The bytes a command issues: its writes when it succeeds, none otherwise. -/
theorem encodeCommand_issued (b : Base) (s : State) :
    (encodeCommand b s).issued = if Succeeds b s then commandWrites b s else [] := by
  by_cases hs : Succeeds b s
  · rw [if_pos hs, encodeCommand_issued_of_succeeds hs]
  · rw [if_neg hs, encodeCommand_issued_of_not_succeeds hs]

theorem encodeCommand_len (b : Base) (s : State) :
    (encodeCommand b s).len = if Succeeds b s then BitVec.ofNat 4 (digits b s) else 0 := by
  rcases encodeCommand_outcome b s with ⟨hs, -⟩ | ⟨hs, -, -, hlen, -⟩
  · rw [if_pos hs, encodeCommand_success hs, State.finish_len]
  · rw [if_neg hs, hlen]

/-- `STATUS` after a command: the two failures in their order, then success (60_exceptions.md R155). -/
theorem encodeCommand_status (b : Base) (s : State) :
    (encodeCommand b s).status =
      if s.badDestination then failStatus .invalidDestination
      else if digits b s + s.termCount ≤ s.cap.toNat then successStatus
      else failStatus .capacityExceeded := by
  rcases encodeCommand_cases b s with ⟨hb, h⟩ | ⟨hb, hn, h⟩ | ⟨hb, hn, h⟩
  · rw [h, if_pos hb, State.raiseFail_status]
  · rw [h, hb, if_neg Bool.false_ne_true, if_neg (Nat.not_le.2 hn), State.raiseFail_status]
  · rw [h, hb, if_neg Bool.false_ne_true, if_pos hn, State.finish_status]

/-! ### `Encode(b)` in terms of the register values (43_commands.md R130) -/

theorem State.upper_eq (s : State) : s.upper = (s.cfg.toNat % 2 == 1) := by
  unfold State.upper
  generalize s.cfg = c
  decide +revert

theorem State.term_eq_true_iff (s : State) : s.term = true ↔ s.cfg.toNat / 2 = 1 := by
  unfold State.term
  generalize s.cfg = c
  decide +revert

theorem State.termCount_eq_div (s : State) : s.termCount = s.cfg.toNat / 2 := by
  unfold State.termCount State.term
  generalize s.cfg = c
  decide +revert

theorem bufferAddr_eq_ofNat (s : State) (k : Nat) :
    s.bufferAddr k = BitVec.ofNat 32 (s.dst.toNat + k) := by
  apply BitVec.eq_of_toNat_eq
  rw [bufferAddr_toNat, BitVec.toNat_ofNat]

/-- The writes of a command, spelled out over the values of `VALUE`, `DST` and `CFG`. -/
theorem commandWrites_eq_of_registers (b : Base) (s : State) :
    commandWrites b s =
      (List.range (digits b s)).map (fun j =>
        (BitVec.ofNat 32 (s.dst.toNat + j),
          lut (BitVec.ofNat 4 (dig b.radix s.value.toNat (digits b s - 1 - j))) (s.cfg.toNat % 2 == 1)))
      ++ (if s.cfg.toNat / 2 = 1 then [(BitVec.ofNat 32 (s.dst.toNat + digits b s), 0x00)] else []) := by
  simp only [commandWrites, digitChar, bufferAddr_eq_ofNat, State.upper_eq, State.term_eq_true_iff]
  rfl

/-- Settles O22: the operand registers by `encodeCommand_keeps`; a refused destination, too little room and a
success each by its equation of `encodeCommand`, the writes of the success spelled out over the registers
(`commandWrites_eq_of_registers`). -/
theorem commandIsTheEncodeFunction : Obligations.CommandIsTheEncodeFunction := by
  unfold Obligations.CommandIsTheEncodeFunction
  intro i s
  obtain ⟨hvalue, hdst, hcap, hcfg, -⟩ := encodeCommand_keeps i.base s
  refine ⟨_, exec_eq i s, hvalue, hdst, hcap, hcfg, fun hbad => ?_, fun hd hc hn => ?_, fun hd hc hn => ?_⟩
  · have hb := badDestination_eq_true.2 hbad
    rw [encodeCommand_of_badDestination hb]
    exact ⟨rfl, rfl, rfl, rfl⟩
  · have hb := badDestination_eq_false.2 ⟨hd, hc⟩
    rw [← State.termCount_eq_div] at hn
    rw [encodeCommand_of_noRoom hb hn]
    exact ⟨rfl, rfl, rfl, rfl⟩
  · rw [← State.termCount_eq_div] at hn
    have hs : Succeeds i.base s := ⟨hd, hn⟩
    have hlen := encodeCommand_len_of_succeeds hs
    refine ⟨hlen, encodeCommand_status_of_succeeds hs, ?_, ?_⟩
    · rw [hlen, encodeCommand_issued_of_succeeds hs, commandWrites_eq_of_registers]
    · rw [encodeCommand_issued_of_succeeds hs, encodeCommand_mem_of_succeeds hs]
      rfl

/-! ### Success exactly when it fits, and zero capacity (43_commands.md R135, R136) -/

theorem encodeCommand_status_eq_success_iff (b : Base) (s : State) :
    (encodeCommand b s).status = successStatus ↔ Succeeds b s := by
  rcases encodeCommand_outcome b s with ⟨hs, -, -, -, hstatus, -⟩ | ⟨hs, -, -, -, hstatus, -⟩
  · exact iff_of_true hstatus hs
  · exact iff_of_false hstatus hs

/-- Ten digits and a terminator are the most a command writes (the source's bound of 43 R136). -/
theorem succeeds_of_eleven_le (b : Base) {s : State} (hdst : s.dst ≠ 0) (hcap : 11 ≤ s.cap.toNat) :
    Succeeds b s := by
  have hdigits := digits_le_ten b s
  have hterm := termCount_le_one s
  exact ⟨hdst, by omega⟩

/-- Settles O29: `STATUS` reports success exactly under `Succeeds`, which eleven bytes always give. -/
theorem successExactlyWhenItFits : Obligations.SuccessExactlyWhenItFits := by
  unfold Obligations.SuccessExactlyWhenItFits
  intro i s
  refine ⟨_, exec_eq i s, encodeCommand_status_eq_success_iff i.base s, fun hdst hcap => ?_⟩
  have hs := succeeds_of_eleven_le i.base hdst hcap
  exact ⟨encodeCommand_status_of_succeeds hs, encodeCommand_len_of_succeeds hs,
    encodeCommand_issued_of_succeeds hs⟩

/-- Settles O32: a capacity of 0 is refused by the test on the destination, whatever `VALUE` is. -/
theorem zeroCapacityFails : Obligations.ZeroCapacityFails := by
  unfold Obligations.ZeroCapacityFails
  intro i s hcap
  refine ⟨_, exec_eq i s, ?_⟩
  rw [encodeCommand_of_badDestination (badDestination_eq_true.2 (.inr hcap))]
  exact ⟨rfl, State.raiseFail_err _ _, rfl, rfl⟩

/-! ### The strings of the least and the greatest value (43_commands.md R133, R134) -/

@[simp] theorem bufferAddr_zero (s : State) : s.bufferAddr 0 = s.dst := by simp [State.bufferAddr]

/-- The string a successful command leaves at `DST`. -/
theorem readBytes_encodeCommand {b : Base} {s : State} (hs : Succeeds b s) :
    readBytes (encodeCommand b s).mem s.dst (digits b s) =
      (List.range (digits b s)).map fun j =>
        some (digitChar b.radix s.value.toNat (digits b s - 1 - j) s.upper) :=
  List.map_congr_left fun _ hj => encodeCommand_read_digit hs (List.mem_range.1 hj)

theorem encodeCommand_len_eq_ofNat {b : Base} {s : State} (hs : Succeeds b s) {n : Nat}
    (hn : digits b s = n) : (encodeCommand b s).len = BitVec.ofNat 4 n := by
  rw [encodeCommand_len, if_pos hs, hn]

theorem ndig_zero (b : Nat) : ndig b 0 = 1 := by rw [ndig, if_pos rfl]

theorem digitChar_zero (b i : Nat) (u : Bool) : digitChar b 0 i u = 0x30 := by
  rw [digitChar, dig, Nat.zero_div, Nat.zero_mod]
  rfl

/-- Settles O30: the value 0 has one digit, the character 0, and the terminator follows at offset 1. -/
theorem zeroIsOneDigit : Obligations.ZeroIsOneDigit := by
  unfold Obligations.ZeroIsOneDigit
  intro i s hvalue hdst hroom
  have hv : s.value.toNat = 0 := by rw [hvalue]; rfl
  have hn : digits i.base s = 1 := by rw [digits, hv, ndig_zero]
  have hs : Succeeds i.base s := ⟨hdst, by rwa [hn]⟩
  refine ⟨_, exec_eq i s, encodeCommand_len_eq_ofNat hs hn, encodeCommand_status_of_succeeds hs, ?_, ?_⟩
  · have hread := encodeCommand_read_digit hs (j := 0) (by omega)
    rwa [bufferAddr_zero, hv, digitChar_zero] at hread
  · intro ht
    have hread := encodeCommand_read_terminator hs ht
    rwa [hn] at hread

/-- The hexadecimal digits of the greatest value. -/
theorem digitChars_hex_max (u : Bool) :
    ((List.range 8).map fun j => some (digitChar 16 0xFFFFFFFF (8 - 1 - j) u)) =
      List.replicate 8 (some (if u then (0x46 : Byte) else 0x66)) := by
  cases u
  · decide
  · decide

/-- The decimal digits of the greatest value. -/
theorem digitChars_dec_max (u : Bool) :
    ((List.range 10).map fun j => some (digitChar 10 0xFFFFFFFF (10 - 1 - j) u)) =
      [some (0x34 : Byte), some 0x32, some 0x39, some 0x34, some 0x39,
       some 0x36, some 0x37, some 0x32, some 0x39, some 0x35] := by
  cases u
  · decide
  · decide

/-- Settles O31: the greatest value has 8 or 10 digits, and the buffer holds their characters
(`readBytes_encodeCommand`). -/
theorem maximumValueStrings : Obligations.MaximumValueStrings := by
  unfold Obligations.MaximumValueStrings
  intro s hvalue hdst
  have hv : s.value.toNat = 0xFFFFFFFF := by rw [hvalue]; rfl
  constructor
  · intro hroom
    have hn : digits .hex s = 8 := by rw [digits, hv]; decide
    have hs : Succeeds .hex s := ⟨hdst, by rwa [hn]⟩
    have hread := readBytes_encodeCommand hs
    rw [hn, hv] at hread
    exact ⟨_, exec_eq .enchex s, encodeCommand_len_eq_ofNat hs hn,
      hread.trans (digitChars_hex_max s.upper)⟩
  · intro hroom
    have hn : digits .dec s = 10 := by rw [digits, hv]; decide
    have hs : Succeeds .dec s := ⟨hdst, by rwa [hn]⟩
    have hread := readBytes_encodeCommand hs
    rw [hn, hv] at hread
    exact ⟨_, exec_eq .encdec s, encodeCommand_len_eq_ofNat hs hn,
      hread.trans (digitChars_dec_max s.upper)⟩

/-! ### The outcome depends on the operands alone (43_commands.md R138) -/

section Operands

variable {s s' : State} (hvalue : s.value = s'.value) (hcap : s.cap = s'.cap) (hcfg : s.cfg = s'.cfg)
include hvalue hcfg

theorem commandWrites_bytes_congr (b : Base) :
    (commandWrites b s).map Prod.snd = (commandWrites b s').map Prod.snd := by
  simp [commandWrites_eq_map, Function.comp_def, digits, State.upper, State.termCount, State.term, hvalue, hcfg]

theorem bytes_needed_congr (b : Base) : digits b s + s.termCount = digits b s' + s'.termCount := by
  rw [digits, digits, State.termCount, State.termCount, State.term, State.term, hvalue, hcfg]

include hcap

theorem succeeds_congr (b : Base) (hd : s.dst = 0 ↔ s'.dst = 0) : Succeeds b s ↔ Succeeds b s' := by
  rw [Succeeds, Succeeds, bytes_needed_congr hvalue hcfg, hcap]
  exact and_congr_left' (not_congr hd)

/-- The result registers of a command look at the destination only to see whether it is null. -/
theorem encodeCommand_results_congr (b : Base) (hd : s.dst = 0 ↔ s'.dst = 0) :
    (encodeCommand b s).len = (encodeCommand b s').len ∧
      (encodeCommand b s).status = (encodeCommand b s').status := by
  have hbad : s.badDestination = s'.badDestination := by
    rw [Bool.eq_iff_iff, badDestination_eq_true, badDestination_eq_true, hcap]
    exact or_congr_left hd
  constructor
  · simp only [encodeCommand_len, succeeds_congr hvalue hcap hcfg b hd, digits, hvalue]
  · simp only [encodeCommand_status, hbad, bytes_needed_congr hvalue hcfg, hcap]

theorem encodeCommand_issued_congr (b : Base) (hdst : s.dst = s'.dst) :
    (encodeCommand b s).issued = (encodeCommand b s').issued := by
  simp only [encodeCommand_issued, succeeds_congr hvalue hcap hcfg b (by rw [hdst]),
    commandWrites_congr hvalue hdst hcfg]

theorem encodeCommand_bytes_congr (b : Base) (hd : s.dst = 0 ↔ s'.dst = 0) :
    (encodeCommand b s).issued.map Prod.snd = (encodeCommand b s').issued.map Prod.snd := by
  simp only [encodeCommand_issued, succeeds_congr hvalue hcap hcfg b hd, apply_ite (List.map Prod.snd),
    commandWrites_bytes_congr hvalue hcfg]

end Operands

/-- Settles O40: a reserved word has one outcome; for a command the results, the writes and their bytes are
functions of the operands (`encodeCommand_results_congr` and the two lemmas after it). -/
theorem outcomeDependsOnOperandsAlone : Obligations.OutcomeDependsOnOperandsAlone := by
  unfold Obligations.OutcomeDependsOnOperandsAlone
  intro w s s' hvalue hcap hcfg
  cases hw : decode w with
  | reserved why =>
    exact ⟨_, _, command_of_reserved hw s, command_of_reserved hw s', fun _ => ⟨rfl, rfl, rfl⟩,
      fun _ _ => ⟨rfl, rfl, rfl⟩⟩
  | instr i =>
    refine ⟨_, _, command_of_instr hw s, command_of_instr hw s', fun hdst => ?_, fun hd hd' => ?_⟩
    · obtain ⟨hlen, hstatus⟩ := encodeCommand_results_congr hvalue hcap hcfg i.base (by rw [hdst])
      exact ⟨hlen, hstatus, encodeCommand_issued_congr hvalue hcap hcfg i.base hdst⟩
    · have hnull : s.dst = 0 ↔ s'.dst = 0 := iff_of_false hd hd'
      obtain ⟨hlen, hstatus⟩ := encodeCommand_results_congr hvalue hcap hcfg i.base hnull
      exact ⟨hlen, hstatus, encodeCommand_bytes_congr hvalue hcap hcfg i.base hnull⟩

/-! ### The written string parses back (43_commands.md R137) -/

theorem charValue_lut (d : BitVec 4) (u : Bool) : charValue (lut d u) = some d.toNat := by
  decide +revert

theorem charValue_digitChar (b : Base) (v i : Nat) (u : Bool) :
    charValue (digitChar b.radix v i u) = some (dig b.radix v i) := by
  rw [digitChar, charValue_lut, BitVec.toNat_ofNat, Nat.mod_eq_of_lt (dig_lt_sixteen b v i)]

/-- One more digit character after a string that has been read. -/
theorem parse_concat_digitChar (b : Base) {l : List (Option Byte)} {acc : Nat} (v i : Nat) (u : Bool)
    (h : parse b.radix l = some acc) :
    parse b.radix (l ++ [some (digitChar b.radix v i u)]) =
      some (acc * b.radix + dig b.radix v i) := by
  unfold parse at h ⊢
  rw [List.foldl_append, h, List.foldl_cons, List.foldl_nil]
  simp [charValue_digitChar, dig_lt]

/-- The `k` most significant of `n` digits read as the value without its `n - k` lowest digits. -/
theorem parse_leading_digits (b : Base) {v n : Nat} (u : Bool) (hv : v < b.radix ^ n) {k : Nat}
    (hk : k ≤ n) :
    parse b.radix ((List.range k).map fun j => some (digitChar b.radix v (n - 1 - j) u)) =
      some (v / b.radix ^ (n - k)) := by
  induction k with
  | zero =>
    rw [Nat.sub_zero, Nat.div_eq_of_lt hv]
    rfl
  | succ k ih =>
    have hweight : n - k = n - 1 - k + 1 := by omega
    have hnext : n - (k + 1) = n - 1 - k := by omega
    rw [List.range_succ, List.map_append, List.map_singleton,
      parse_concat_digitChar b v (n - 1 - k) u (ih (Nat.le_of_succ_le hk)), hweight, hnext, ← div_pow_eq]

/-- Settles O43: the buffer holds the characters of the digits, and all `digits` of them read as `VALUE`. -/
theorem writtenStringParsesBack : Obligations.WrittenStringParsesBack := by
  unfold Obligations.WrittenStringParsesBack
  intro i s hs
  refine ⟨_, exec_eq i s, ?_⟩
  rw [encodeCommand_len_of_succeeds hs, readBytes_encodeCommand hs,
    parse_leading_digits i.base s.upper (lt_pow_ndig i.base s.value.isLt) (Nat.le_refl _),
    Nat.sub_self, Nat.pow_zero, Nat.div_one]

/-! ### The two levels agree (43_commands.md R139) -/

theorem microSteps_of_reserved {w : Word} {why : Reject} (h : decode w = .reserved why) (s : State) :
    microSteps w s = 1 := by
  rw [microSteps, h]

theorem microSteps_encode (i : Instr) (s : State) :
    microSteps (encode i) s =
      if s.badDestination then 1
      else if digits i.base s + s.termCount > s.cap.toNat then digits i.base s + 2
      else 2 * digits i.base s + 2 + s.termCount := by
  rw [microSteps, (decode_eq_instr_iff (encode i) i).2 rfl]

theorem midState_zero (b : Base) (s : State) : midState b s 0 = extractState b s 0 := by
  rw [midState, if_pos (Nat.zero_le _)]

/-- `j` undisturbed steps after the launch of a command that succeeds the block is in the closed form
`midState`. -/
theorem run_midState (b : Base) {s : State} (hs : Succeeds b s) {rest : List Input} {j : Nat}
    (hj : j < 2 * digits b s + 1 + s.termCount) (hu : undisturbed j rest = true) :
    Host.Core.run Sys2Proof.core j (midState b (s.take rest) 0) =
      .next (midState b (s.take (afterMicroSteps j rest)) j) := by
  induction j with
  | zero => rfl
  | succ j ih =>
    have hrun := ih (Nat.lt_of_succ_lt hj) (undisturbed_mono hu (Nat.le_succ j))
    have hstep := (step_midState b (s.take (afterMicroSteps j rest)) j (undisturbed_afterMicroSteps hu)).trans
      (microStep_midState b _ hs hj)
    rw [run_add j 1 hrun, run_succ 0 hstep, afterMicroSteps_succ]
    rfl

/-- The last step of a command that succeeds ends in the state of the command level. -/
theorem step_midState_last (b : Base) {s : State} (hs : Succeeds b s) {rest : List Input} {j : Nat}
    (hj : j + 1 = 2 * digits b s + 1 + s.termCount) (hu : undisturbed 1 rest = true) :
    step (midState b (s.take rest) j) = .next (encodeCommand b (s.take (afterMicroStep rest))) :=
  (step_midState b (s.take rest) j hu).trans (microStep_midState_last b _ hs hj)

/-- The check of a command that has no room ends in the state of the command level. -/
theorem step_check_noRoom (b : Base) {s : State} (hb : s.badDestination = false)
    (hn : s.cap.toNat < digits b s + s.termCount) {rest : List Input} (hu : undisturbed 1 rest = true) :
    step (extractState b (s.take rest) (digits b s)) =
      .next (encodeCommand b (s.take (afterMicroStep rest))) :=
  (step_undisturbed (extractState_phase_ne_idle b (s.take rest) (digits b s)) hu).trans
    (microStep_check_noRoom b (s.take (afterMicroStep rest)) hb hn)

section Levels

variable {i : Instr} {s : State} {rest : List Input} (hp : s.phase = .idle)
include hp

/-- A launch that the destination test refuses is the whole command. -/
theorem run_badDestination (hb : s.badDestination = true) :
    Host.Core.run Sys2Proof.core 1 { s with inputs := .present (encode i) :: rest } =
      .next (encodeCommand i.base (s.take rest)) := by
  have hstep := step_present (s := { s with inputs := .present (encode i) :: rest }) hp rfl
  rw [launch_encode] at hstep
  exact (run_succ 0 hstep).trans (congrArg Host.Outcome.next (launchBase_bad i.base (s.take rest) hb))

/-- Launch, one extraction step per digit, and the check that fails. -/
theorem run_noRoom (hb : s.badDestination = false) (hn : s.cap.toNat < digits i.base s + s.termCount)
    (hu : undisturbed (digits i.base s + 1) rest = true) :
    Host.Core.run Sys2Proof.core (digits i.base s + 2) { s with inputs := .present (encode i) :: rest } =
      .next (encodeCommand i.base (s.take (afterMicroSteps (digits i.base s + 1) rest))) := by
  have hextract := run_extractState i.base s (Nat.le_refl _) (undisturbed_mono hu (Nat.le_succ _))
  have hcheck := step_check_noRoom i.base hb hn (undisturbed_afterMicroSteps hu)
  rw [run_succ (digits i.base s + 1) (step_launch hp hb), run_add _ 1 hextract, run_succ 0 hcheck,
    afterMicroSteps_succ]
  rfl

/-- Launch, the micro-steps inside the command, and the one that finishes it. -/
theorem run_succeeds (hs : Succeeds i.base s)
    (hu : undisturbed (2 * digits i.base s + 1 + s.termCount) rest = true) :
    Host.Core.run Sys2Proof.core (2 * digits i.base s + 2 + s.termCount)
        { s with inputs := .present (encode i) :: rest } =
      .next (encodeCommand i.base
        (s.take (afterMicroSteps (2 * digits i.base s + 1 + s.termCount) rest))) := by
  obtain ⟨j, hj⟩ : ∃ j, j + 1 = 2 * digits i.base s + 1 + s.termCount :=
    ⟨2 * digits i.base s + s.termCount, by omega⟩
  rw [← hj] at hu
  have hmid := run_midState i.base hs (by omega) (undisturbed_mono hu (Nat.le_succ j))
  have hlast := step_midState_last i.base hs hj (undisturbed_afterMicroSteps hu)
  rw [show 2 * digits i.base s + 2 + s.termCount = j + 1 + 1 by omega, ← hj,
    run_succ (j + 1) (step_launch hp (succeeds_badDestination hs)), ← midState_zero, run_add j 1 hmid,
    run_succ 0 hlast, afterMicroSteps_succ]
  rfl

end Levels

/-- Settles O51: one micro-step for a reserved word or a refused destination; the check ends a command without room
(`run_noRoom`), the last write step a command that succeeds (`run_succeeds`). -/
theorem theTwoLevelsAgree : Obligations.TheTwoLevelsAgree := by
  unfold Obligations.TheTwoLevelsAgree
  intro w s rest hp hu
  cases hw : decode w with
  | reserved why =>
    have hstep := step_present (s := { s with inputs := .present w :: rest }) hp rfl
    rw [launch_of_reserved hw] at hstep
    rw [microSteps_of_reserved hw, run_succ 0 hstep, command_of_reserved hw]
    rfl
  | instr i =>
    obtain rfl := (decode_eq_instr_iff w i).1 hw
    rw [command_of_instr hw]
    rw [microSteps_encode] at hu ⊢
    by_cases hb : s.badDestination = true
    · rw [if_pos hb]
      exact run_badDestination hp hb
    · have hb' : s.badDestination = false := Bool.eq_false_iff.2 hb
      rw [if_neg hb] at hu ⊢
      by_cases hn : digits i.base s + s.termCount > s.cap.toNat
      · rw [if_pos hn] at hu ⊢
        exact run_noRoom hp hb' hn hu
      · rw [if_neg hn] at hu ⊢
        have hs : Succeeds i.base s := ⟨(badDestination_eq_false.1 hb').1, Nat.not_lt.1 hn⟩
        rw [show 2 * digits i.base s + 2 + s.termCount - 1 = 2 * digits i.base s + 1 + s.termCount by
          omega] at hu ⊢
        exact run_succeeds hp hs hu

end Sys2Proof.Machine
end

section
/-! The failures of a command: their codes, their order, and what each leaves behind (60_exceptions.md R150 to
R156). -/

namespace Sys2Proof.Machine

open Safety

/-! ### Illegal Command (60_exceptions.md R154) -/

theorem illegalCommand_err (s : State) : (illegalCommand s).err = FailCode.illegalCommand.code :=
  State.raiseFail_err _ _

theorem illegalCommand_len (s : State) : (illegalCommand s).len = 0 := rfl

/-! ### Invalid Destination (60_exceptions.md R153) -/

/-- A refused destination: the whole next state. -/
theorem encodeCommand_eq_of_badDestination (b : Base) {s : State} (h : s.badDestination = true) :
    encodeCommand b s = { s with
      base := b, issued := [], len := 0, status := 0x5, phase := .idle, resp := some .wrote } := by
  rw [encodeCommand_of_badDestination h]
  rfl

theorem encodeCommand_err_eq_two_iff (b : Base) (s : State) :
    (encodeCommand b s).err = 2 ↔ s.badDestination = true := by
  rcases encodeCommand_cases b s with ⟨hb, h⟩ | ⟨hb, -, h⟩ | ⟨hb, -, h⟩
  · rw [h, hb, State.raiseFail_err]
    exact iff_of_true rfl rfl
  · rw [h, hb, State.raiseFail_err]
    exact iff_of_false (by decide) Bool.false_ne_true
  · rw [h, hb, State.finish_err]
    exact iff_of_false (by decide) Bool.false_ne_true

/-- The first byte a command writes goes to `DST` itself, which has passed the test. -/
theorem encodeCommand_first_address_ne_zero {b : Base} {s : State} {w : Addr × Byte}
    (hw : (encodeCommand b s).issued.head? = some w) : w.1 ≠ 0 := by
  by_cases hs : Succeeds b s
  · have hpos : 0 < digits b s + s.termCount := Nat.add_pos_left (digits_pos b s) _
    rw [encodeCommand_issued_of_succeeds hs, List.head?_eq_getElem?, commandWrites_getElem?, if_pos hpos,
      bufferAddr_zero] at hw
    cases hw
    exact hs.1
  · rw [encodeCommand_issued_of_not_succeeds hs] at hw
    cases hw

/-- Settles O26: the destination test alone decides code 2, it comes before anything else the command does, and a
command that writes begins at `DST`. -/
theorem badDestinationFailsWithCode2 : Obligations.BadDestinationFailsWithCode2 := by
  unfold Obligations.BadDestinationFailsWithCode2
  intro i s
  rw [exec_eq]
  refine ⟨fun hbad => ?_, _, rfl, ?_, fun w => encodeCommand_first_address_ne_zero⟩
  · exact congrArg _ (encodeCommand_eq_of_badDestination i.base (badDestination_eq_true.2 hbad))
  · exact (encodeCommand_err_eq_two_iff i.base s).trans badDestination_eq_true

/-! ### Capacity-Exceeded (60_exceptions.md R152) -/

/-- Settles O27: with a good destination and too little room the command has only extracted the digits, which
touches internal registers alone, when `raiseFail` ends it. -/
theorem tooSmallCapacityFailsWithCode1 : Obligations.TooSmallCapacityFailsWithCode1 := by
  unfold Obligations.TooSmallCapacityFailsWithCode1
  intro i s hdst hcap hroom
  rw [← termCount_eq] at hroom
  refine ⟨_, exec_eq i s, ?_⟩
  rw [encodeCommand_of_noRoom (badDestination_eq_false.2 ⟨hdst, hcap⟩) hroom]
  exact ⟨rfl, rfl, rfl, rfl, rfl, rfl, rfl, rfl, rfl, rfl, rfl⟩

/-! ### The order of the failures (60_exceptions.md R155) -/

/-- `STATUS` is `{ERR, DONE}` (10_state.md R26). -/
theorem State.status_toNat_of_done {s : State} (h : s.done = true) :
    s.status.toNat = 2 * s.err.toNat + 1 := by
  unfold State.done at h
  unfold State.err
  generalize s.status = st at h
  decide +revert

/-- The one outcome of a command of the map: `ERR` and `LEN`, in the order 2, 1, success. -/
theorem encodeCommand_err_len (b : Base) (s : State) :
    if s.dst = 0 ∨ s.cap = 0 then (encodeCommand b s).err = 2 ∧ (encodeCommand b s).len = 0
    else if digits b s + s.termCount > s.cap.toNat then
      (encodeCommand b s).err = 1 ∧ (encodeCommand b s).len = 0
    else (encodeCommand b s).err = 0 ∧ (encodeCommand b s).len.toNat = digits b s := by
  split
  next hbad =>
    rw [encodeCommand_of_badDestination (badDestination_eq_true.2 hbad)]
    exact ⟨State.raiseFail_err _ _, rfl⟩
  next hgood =>
    have hdst : s.dst ≠ 0 := fun h => hgood (.inl h)
    have hcap : s.cap ≠ 0 := fun h => hgood (.inr h)
    split
    next hn =>
      rw [encodeCommand_of_noRoom (badDestination_eq_false.2 ⟨hdst, hcap⟩) hn]
      exact ⟨State.raiseFail_err _ _, rfl⟩
    next hn =>
      have hs : Succeeds b s := ⟨hdst, Nat.not_lt.1 hn⟩
      refine ⟨?_, encodeCommand_len_of_succeeds hs⟩
      rw [encodeCommand_success hs, State.finish_err]

/-- Settles O28: decoding comes first; a command of the map tests its destination, then its capacity
(`encodeCommand_err_len`); every outcome sets `DONE`. -/
theorem failurePriority : Obligations.FailurePriority := by
  unfold Obligations.FailurePriority
  intro w s
  cases hw : decode w with
  | reserved why =>
    exact ⟨_, command_of_reserved hw s, State.status_toNat_of_done (illegalCommand_done s),
      illegalCommand_err s, illegalCommand_len s⟩
  | instr i =>
    exact ⟨_, command_of_instr hw s, State.status_toNat_of_done (encodeCommand_done i.base s),
      encodeCommand_err_len i.base s⟩

/-! ### `LEN` = 0 means failure, and only failure (60_exceptions.md R156) -/

theorem encodeCommand_len_eq_zero_iff (b : Base) (s : State) :
    (encodeCommand b s).len = 0 ↔ (encodeCommand b s).err ≠ 0 := by
  rcases encodeCommand_outcome b s with ⟨-, -, -, hlen, -, herr⟩ | ⟨-, -, -, hlen, -, herr⟩
  · have hpos := digits_pos b s
    refine iff_of_false (fun h0 => ?_) (fun hne => hne herr)
    rw [← hlen, h0] at hpos
    exact Nat.lt_irrefl 0 hpos
  · exact iff_of_true hlen herr

/-- Settles O39: a success has at least one digit, and every failure, an illegal command too, clears `LEN`. -/
theorem zeroLengthMeansFailure : Obligations.ZeroLengthMeansFailure := by
  unfold Obligations.ZeroLengthMeansFailure
  intro w s
  rcases command_cases w s with ⟨i, -, h⟩ | ⟨-, -, h⟩
  · exact ⟨_, h, encodeCommand_done i.base s, encodeCommand_len_eq_zero_iff i.base s⟩
  · refine ⟨_, h, illegalCommand_done s, iff_of_true (illegalCommand_len s) ?_⟩
    rw [illegalCommand_err]
    exact FailCode.code_ne_zero _

end Sys2Proof.Machine
end

section
/-! The host port held during a command, reset before and inside a command, and the number of micro-steps
(70_reset_and_hazards.md R171 to R184). -/

namespace Sys2Proof.Machine

open Safety

/-! ### A command with no register written since reset (70_reset_and_hazards.md R173) -/

theorem State.resetEvent_badDestination (s : State) : s.resetEvent.badDestination = true :=
  badDestination_eq_true.2 (.inl s.resetEvent_dst)

theorem command_encode (i : Instr) (s : State) : command (encode i) s = .next (encodeCommand i.base s) :=
  command_of_instr ((decode_eq_instr_iff (encode i) i).2 rfl) s

/-- The step of a `CMD` write that follows a reset, as a whole next state. -/
theorem step_resetEvent_cmdWrite {s : State} {rest : List Input} {i : Instr}
    (hin : s.inputs = .txn (.write 4 (encode i)) :: rest) :
    step s.resetEvent = .next { s.resetEvent.take rest with
      base := i.base, issued := [], len := 0, status := 0x5, phase := .idle, resp := some .wrote } := by
  rw [step_cmdWrite s.resetEvent_phase (by rw [State.resetEvent_inputs, hin]), command_encode,
    encodeCommand_eq_of_badDestination i.base (s := s.resetEvent.take rest) s.resetEvent_badDestination]

/-- Settles O7: reset leaves a null destination, which the command refuses before anything else. -/
theorem firstCommandAfterResetIsRefused : Obligations.FirstCommandAfterResetIsRefused := by
  unfold Obligations.FirstCommandAfterResetIsRefused
  intro i s rest hin
  exact ⟨_, (run_succ 1 (step_rst hin)).trans (run_succ 0 (step_resetEvent_cmdWrite rfl)), rfl, rfl, rfl, rfl⟩

/-! ### The host port during a command (30_encoding.md R74, 70_reset_and_hazards.md R178) -/

/-- What a micro-step from `s` to `t` lets the host see: the inputs and the operand registers stay; the response and
the result registers stay until the command ends, and at its end the `CMD` write completes. -/
structure HoldsHostPort (s t : State) : Prop where
  inputs : t.inputs = s.inputs
  value : t.value = s.value
  dst : t.dst = s.dst
  cap : t.cap = s.cap
  cfg : t.cfg = s.cfg
  busy : t.phase ≠ .idle → t.resp = s.resp ∧ t.len = s.len ∧ t.status = s.status
  ends : t.phase = .idle → t.resp = some .wrote

/-- A digit is stored only where there is a scratch entry for it. -/
theorem storeDigit_eq_next {d : BitVec 4} {q : Word} {s t : State} (h : storeDigit d q s = .next t) :
    ∃ sc, t = { s with
      scratch := sc, acc := q, cnt := s.cnt + 1, phase := if q ≠ 0 then .extract else .check } := by
  rw [storeDigit] at h
  cases hw : writeScratch s.scratch s.cnt.toNat (lut d s.upper) with
  | none =>
    rw [hw] at h
    cases h
  | some sc =>
    rw [hw] at h
    exact ⟨sc, (Host.Outcome.next.inj h).symm⟩

theorem storeDigit_holdsHostPort {d : BitVec 4} {q : Word} {s t : State} (h : storeDigit d q s = .next t) :
    HoldsHostPort s t := by
  obtain ⟨sc, rfl⟩ := storeDigit_eq_next h
  have hbusy : (if q ≠ 0 then Phase.extract else .check) ≠ .idle := by
    split
    · exact nofun
    · exact nofun
  exact ⟨rfl, rfl, rfl, rfl, rfl, fun _ => ⟨rfl, rfl, rfl⟩, fun hidle => absurd hidle hbusy⟩

theorem checkStep_holdsHostPort (s : State) : HoldsHostPort s (checkStep s) := by
  rw [checkStep]
  split
  · exact ⟨rfl, rfl, rfl, rfl, rfl, fun hbusy => absurd rfl hbusy, fun _ => rfl⟩
  · exact ⟨rfl, rfl, rfl, rfl, rfl, fun _ => ⟨rfl, rfl, rfl⟩, nofun⟩

theorem afterWrite_holdsHostPort {s : State} (hp : s.phase = .write) : HoldsHostPort s (afterWrite s) := by
  rw [afterWrite]
  split
  · exact ⟨rfl, rfl, rfl, rfl, rfl, fun _ => ⟨rfl, rfl, rfl⟩, fun hidle => nomatch hp.symm.trans hidle⟩
  · split
    · exact ⟨rfl, rfl, rfl, rfl, rfl, fun _ => ⟨rfl, rfl, rfl⟩, nofun⟩
    · exact ⟨rfl, rfl, rfl, rfl, rfl, fun hbusy => absurd rfl hbusy, fun _ => rfl⟩

/-- Writing the byte itself touches nothing that the host sees. -/
theorem writeStep_holdsHostPort {s t : State} (hp : s.phase = .write) (h : writeStep s = .next t) :
    HoldsHostPort s t := by
  obtain ⟨x, -, rfl⟩ := writeStep_eq_next h
  obtain ⟨hinputs, hvalue, hdst, hcap, hcfg, hbusy, hends⟩ := afterWrite_holdsHostPort (s := s.digitWritten x) hp
  exact ⟨hinputs, hvalue, hdst, hcap, hcfg, hbusy, hends⟩

theorem termStep_holdsHostPort (s : State) : HoldsHostPort s (termStep s) :=
  ⟨rfl, rfl, rfl, rfl, rfl, fun hbusy => absurd rfl hbusy, fun _ => rfl⟩

theorem microStep_of_extract {s : State} (hp : s.phase = .extract) :
    microStep s = storeDigit (BitVec.ofNat 4 (s.acc.toNat % s.base.radix))
      (BitVec.ofNat 32 (s.acc.toNat / s.base.radix)) s := by
  rw [microStep, hp]
  exact extractStep_eq s

/-- Every micro-step of a command in progress holds the host port. -/
theorem microStep_holdsHostPort {s t : State} (hp : s.phase ≠ .idle) (h : microStep s = .next t) :
    HoldsHostPort s t := by
  cases hphase : s.phase with
  | idle => exact absurd hphase hp
  | extract => exact storeDigit_holdsHostPort ((microStep_of_extract hphase).symm.trans h)
  | check =>
    rw [microStep_of_check hphase] at h
    cases h
    exact checkStep_holdsHostPort s
  | write => exact writeStep_holdsHostPort hphase ((microStep_of_write hphase).symm.trans h)
  | termw =>
    rw [microStep_of_termw hphase] at h
    cases h
    exact termStep_holdsHostPort s

/-- A host transaction at the head of the inputs waits there while a command is in progress. -/
theorem step_txn_waits {s : State} {rest : List Input} (hp : s.phase ≠ .idle)
    (hin : (∃ x, s.inputs = .txn x :: rest) ∨ ∃ w, s.inputs = .present w :: rest) :
    step s = microStep (s.take s.inputs) := by
  rcases hin with ⟨x, hin⟩ | ⟨w, hin⟩
  · rw [step_undisturbed hp (by rw [hin]; rfl), hin]
    rfl
  · rw [step_undisturbed hp (by rw [hin]; rfl), hin]
    rfl

/-- Settles O12: the transaction waits, so the step is a micro-step, which holds the host port
(`microStep_holdsHostPort`); the response was forgotten before it. -/
theorem hostPortIsHeldDuringACommand : Obligations.HostPortIsHeldDuringACommand := by
  unfold Obligations.HostPortIsHeldDuringACommand
  intro s t rest hp hin hstep
  rw [step_txn_waits hp hin] at hstep
  obtain ⟨hinputs, hvalue, hdst, hcap, hcfg, hbusy, hends⟩ :=
    microStep_holdsHostPort (s := s.take s.inputs) hp hstep
  exact ⟨hinputs, hvalue, hdst, hcap, hcfg, hbusy, hends⟩

/-! ### The number of micro-steps (70_reset_and_hazards.md R184) -/

theorem microSteps_pos (w : Word) (s : State) : 1 ≤ microSteps w s := by
  cases hw : decode w with
  | reserved why => exact Nat.le_of_eq (microSteps_of_reserved hw s).symm
  | instr i =>
    obtain rfl := (decode_eq_instr_iff w i).1 hw
    rw [microSteps_encode]
    split
    · exact Nat.le_refl 1
    · split
      · omega
      · omega

/-- A success takes the most micro-steps: two for each digit, the launch, the check and the terminator. -/
theorem microSteps_encode_le (i : Instr) (s : State) :
    microSteps (encode i) s ≤ 2 * (if i = .enchex then 8 else 10) + 3 := by
  have hdigits := digits_le_of_instr i s
  have hterm := termCount_le_one s
  rw [microSteps_encode]
  split
  · omega
  · split
    · omega
    · omega

theorem microSteps_le (w : Word) (s : State) :
    microSteps w s ≤ 23 ∧ (decode w = .instr .enchex → microSteps w s ≤ 19) := by
  cases hw : decode w with
  | reserved why =>
    rw [microSteps_of_reserved hw]
    exact ⟨by decide, nofun⟩
  | instr i =>
    obtain rfl := (decode_eq_instr_iff w i).1 hw
    have hle := microSteps_encode_le i s
    cases i
    case enchex => exact ⟨Nat.le_trans hle (by decide), fun _ => hle⟩
    case encdec => exact ⟨hle, nofun⟩

/-- Every command word leaves the block idle with the `CMD` write completed. -/
theorem command_ends (w : Word) (s : State) :
    ∃ t, command w s = .next t ∧ t.phase = .idle ∧ t.resp = some .wrote := by
  rcases command_cases w s with ⟨i, -, h⟩ | ⟨why, -, h⟩
  · obtain ⟨hphase, hresp, -⟩ := encodeCommand_ends i.base s
    exact ⟨_, h, hphase, hresp⟩
  · exact ⟨_, h, rfl, rfl⟩

/-- A command with micro-steps left after its launch is extracting or at the check, or it is one that succeeds. -/
theorem cases_of_lt_microSteps {i : Instr} {s : State} {j : Nat} (hj : j + 1 < microSteps (encode i) s) :
    s.badDestination = false ∧
      (j ≤ digits i.base s ∨ Succeeds i.base s ∧ j < 2 * digits i.base s + 1 + s.termCount) := by
  rw [microSteps_encode] at hj
  split at hj
  · omega
  next hb =>
    have hb' : s.badDestination = false := Bool.eq_false_iff.2 hb
    refine ⟨hb', ?_⟩
    split at hj
    · exact .inl (by omega)
    next hn => exact .inr ⟨⟨(badDestination_eq_false.1 hb').1, Nat.not_lt.1 hn⟩, by omega⟩

section Launched

variable {i : Instr} {s : State} {rest : List Input} {j : Nat} (hp : s.phase = .idle)
include hp

/-- Launch and `j` extraction steps. -/
theorem run_launch_extractState (hb : s.badDestination = false) (hj : j ≤ digits i.base s)
    (hu : undisturbed j rest = true) :
    Host.Core.run Sys2Proof.core (j + 1) { s with inputs := .present (encode i) :: rest } =
      .next (extractState i.base (s.take (afterMicroSteps j rest)) j) :=
  (run_succ j (step_launch hp hb)).trans (run_extractState i.base s hj hu)

/-- Launch and `j` more micro-steps of a command that succeeds. -/
theorem run_launch_midState (hs : Succeeds i.base s) (hj : j < 2 * digits i.base s + 1 + s.termCount)
    (hu : undisturbed j rest = true) :
    Host.Core.run Sys2Proof.core (j + 1) { s with inputs := .present (encode i) :: rest } =
      .next (midState i.base (s.take (afterMicroSteps j rest)) j) := by
  rw [run_succ j (step_launch hp (succeeds_badDestination hs)), ← midState_zero]
  exact run_midState i.base hs hj hu

/-- Before its last micro-step a command has not ended and the port has completed nothing. -/
theorem run_busy {w : Word} (hj : j + 1 < microSteps w s) (hu : undisturbed j rest = true) :
    ∃ t, Host.Core.run Sys2Proof.core (j + 1) { s with inputs := .present w :: rest } = .next t ∧
      t.phase ≠ .idle ∧ t.resp = none := by
  cases hw : decode w with
  | reserved why =>
    rw [microSteps_of_reserved hw] at hj
    omega
  | instr i =>
    obtain rfl := (decode_eq_instr_iff w i).1 hw
    obtain ⟨hb, hextract | ⟨hs, hlt⟩⟩ := cases_of_lt_microSteps hj
    · exact ⟨_, run_launch_extractState hp hb hextract hu, extractState_phase_ne_idle _ _ _, rfl⟩
    · obtain ⟨hbusy, hresp, -⟩ := midState_busy i.base (s.take (afterMicroSteps j rest)) (j := j)
      exact ⟨_, run_launch_midState hp hs hlt hu, hbusy, hresp⟩

end Launched

/-- Settles O52: before the last micro-step the command is busy (`run_busy`), after it the state is that of the
command level (`theTwoLevelsAgree`), where every command has ended; the bounds come from the digit counts, and the
greatest value with a terminator, or a null destination, takes them. -/
theorem microStepCounts : Obligations.MicroStepCounts := by
  unfold Obligations.MicroStepCounts
  refine ⟨⟨{ State.reset with value := 0xFFFFFFFF, dst := 1, cap := 11, cfg := 2 }, by decide⟩,
    ⟨{ State.reset with value := 0xFFFFFFFF, dst := 1, cap := 9, cfg := 2 }, by decide⟩,
    ⟨State.reset, by decide⟩,
    fun w s rest hp hu => ⟨fun k hpos hk => ?_, ?_, microSteps_pos w s, microSteps_le w s⟩⟩
  · obtain ⟨j, rfl⟩ : ∃ j, k = j + 1 := ⟨k - 1, by omega⟩
    exact run_busy hp hk (undisturbed_mono hu (by omega))
  · rw [theTwoLevelsAgree w s rest hp hu]
    exact command_ends w _

/-! ### A reset during a command (70_reset_and_hazards.md R171) -/

/-- Before `WRITE` the command has issued nothing. -/
theorem commandInv_issued_eq_nil {s : State} (h : CommandInv s) (hp : s.phase = .extract ∨ s.phase = .check) :
    s.issued = [] := by
  unfold CommandInv at h
  rcases hp with hp | hp
  · rw [hp] at h
    obtain ⟨-, -, -, -, hissued⟩ := h
    exact hissued
  · rw [hp] at h
    obtain ⟨-, hissued⟩ := h
    exact hissued

/-- From `WRITE` on the command has issued the first `WIDX` of its writes, and there is one more to come: a digit in
`WRITE`, the terminator in `TERMW`. -/
theorem commandInv_issued_eq_take {s : State} (h : CommandInv s) (hp : s.phase = .write ∨ s.phase = .termw) :
    s.issued = (commandWrites s.base s).take s.widx.toNat ∧
      s.widx.toNat < (commandWrites s.base s).length := by
  unfold CommandInv at h
  rw [commandWrites_length]
  rcases hp with hp | hp
  · rw [hp] at h
    obtain ⟨⟨-, hcnt, -, -⟩, -, hwidx, hissued⟩ := h
    exact ⟨hissued, by omega⟩
  · rw [hp] at h
    obtain ⟨⟨-, hcnt, -, -⟩, -, hwidx, hterm, hissued⟩ := h
    rw [termCount_eq, if_pos hterm]
    rw [hwidx, hcnt] at hissued ⊢
    exact ⟨hissued, Nat.lt_succ_self _⟩

/-- Inside a command the port has issued none of its writes up to the check, and then one with each write step. -/
theorem midState_issued (b : Base) (s : State) (j : Nat) :
    (midState b s j).issued = (commandWrites b s).take (j - (digits b s + 1)) := by
  rw [midState]
  split
  next hj =>
    rw [Nat.sub_eq_zero_of_le (Nat.le_succ_of_le hj)]
    rfl
  · rfl

/-- Inside a command memory holds what has been issued, and nothing else of it. -/
theorem midState_mem (b : Base) (s : State) (j : Nat) :
    (midState b s j).mem = s.mem.writeAll (midState b s j).issued := by
  rw [midState]
  split
  · rfl
  · rfl

theorem undisturbed_replicate_tick (k : Nat) (rest : List Input) :
    undisturbed k (List.replicate k .tick ++ rest) = true := by
  induction k with
  | zero => cases rest <;> rfl
  | succ k ih => exact ih

theorem afterMicroSteps_replicate_tick (k : Nat) (rest : List Input) :
    afterMicroSteps k (List.replicate k .tick ++ rest) = rest := by
  induction k with
  | zero => rfl
  | succ k ih => exact ih

/-- A reset after `k` clock edges inside a command that would have succeeded. -/
theorem run_reset {i : Instr} {s : State} (rest : List Input) {k : Nat} (hp : s.phase = .idle)
    (hs : Succeeds i.base s) (hk : k < 2 * digits i.base s + 1 + s.termCount) :
    Host.Core.run Sys2Proof.core (k + 2)
        { s with inputs := .present (encode i) :: (List.replicate k .tick ++ .rst :: rest) } =
      .next (State.resetEvent ((midState i.base (s.take (.rst :: rest)) k).take rest)) := by
  have hmid := run_launch_midState hp hs hk (undisturbed_replicate_tick k (.rst :: rest))
  rw [afterMicroSteps_replicate_tick] at hmid
  obtain ⟨-, -, hin⟩ := midState_busy i.base (s.take (.rst :: rest)) (j := k)
  rw [run_add (k + 1) 1 hmid, run_succ 0 (step_rst hin)]
  rfl

/-- Settles O53: the step is the reset event, which keeps memory and what was issued, and the invariant says how much
that is; in a run the block is in the closed form `midState` when the reset comes (`run_reset`). -/
theorem resetLeavesAPrefix : Obligations.ResetLeavesAPrefix := by
  unfold Obligations.ResetLeavesAPrefix
  constructor
  · rintro s rest ⟨-, -, hcommand⟩ - hin
    exact ⟨_, step_rst hin, rfl, rfl, rfl, rfl, rfl, rfl, rfl,
      commandInv_issued_eq_nil hcommand, commandInv_issued_eq_take hcommand⟩
  · intro i s rest k hp hs hk
    refine ⟨_, run_reset rest hp hs (by omega), ?_, ?_, rfl, rfl, rfl, rfl, rfl, rfl, rfl, rfl, rfl⟩
    · exact midState_issued i.base (s.take (.rst :: rest)) k
    · exact midState_mem i.base (s.take (.rst :: rest)) k

end Sys2Proof.Machine
end

section
/-! What one step of the machine can be, said once for every state (00_scope.md R11, 30_encoding.md R74), and what
follows for the idle block, other agents' writes, the results, the operands and memory. -/

namespace Sys2Proof.Machine

open Safety

/-! ### The cases of a step -/

/-- What one step from `s` answers, by the next input and whether a command is in progress. -/
inductive StepCase (s : State) : Host.Outcome State Fault Refusal → Prop where
  | rst (rest : List Input) (hin : s.inputs = .rst :: rest) : StepCase s (.next (s.take rest).resetEvent)
  | agent (a : Addr) (x : Byte) (rest : List Input) (hin : s.inputs = .agent a x :: rest) :
      StepCase s (.next ((s.take rest).agentWrite a x))
  | micro {o} (hp : s.phase ≠ .idle) (h : microStep (s.take (afterMicroStep s.inputs)) = o) : StepCase s o
  | wait (rest : List Input) (hp : s.phase = .idle) : StepCase s (.next (s.take rest))
  | read (off : BitVec 3) (rest : List Input) (hp : s.phase = .idle) :
      StepCase s (.next (hostReadTxn off (s.take rest)))
  | regWrite (off : BitVec 3) (wdata : Word) (rest : List Input) (hp : s.phase = .idle)
      (hin : s.inputs = .txn (.write off wdata) :: rest) :
      StepCase s (.next (hostWriteTxn off wdata (s.take rest)))
  | cmdWrite {o} (w : Word) (rest : List Input) (hp : s.phase = .idle)
      (hin : s.inputs = .txn (.write 4 w) :: rest) (h : command w (s.take rest) = o) : StepCase s o
  | present (w : Word) (rest : List Input) (hp : s.phase = .idle) :
      StepCase s (.next (launch w (s.take rest)))

/-- In `IDLE` there is no micro-step (10_state.md R36). -/
theorem microStep_of_idle {s : State} (hp : s.phase = .idle) : microStep s = .next s := by
  rw [microStep, hp]

/-- A clock edge with nothing from outside passes an idle block by. -/
theorem step_idle {s : State} {rest : List Input} (hp : s.phase = .idle)
    (hin : s.inputs = [] ∧ rest = [] ∨ s.inputs = .tick :: rest) : step s = .next (s.take rest) := by
  have hwait := microStep_of_idle (s := s.take rest) hp
  rcases hin with ⟨hin, rfl⟩ | hin
  · rw [step, hin]
    exact hwait
  · rw [step_tick hin]
    exact hwait

theorem step_read {s : State} {rest : List Input} {off : BitVec 3} (hp : s.phase = .idle)
    (hin : s.inputs = .txn (.read off) :: rest) : step s = .next (hostReadTxn off (s.take rest)) :=
  step_txn hp hin

theorem step_regWrite {s : State} {rest : List Input} {off : BitVec 3} {wdata : Word} (hp : s.phase = .idle)
    (hin : s.inputs = .txn (.write off wdata) :: rest) (hoff : off ≠ 4) :
    step s = .next (hostWriteTxn off wdata (s.take rest)) := by
  rw [step_txn hp hin, hostTxn, if_neg (mt (HostReg.ofOff_eq_iff off .cmd).1 hoff)]

/-- Every step is one of the cases. -/
theorem step_cases (s : State) : StepCase s (step s) := by
  by_cases hp : s.phase = .idle
  case neg =>
    rcases undisturbed_or_rst_or_agent s.inputs with hu | ⟨rest, hin⟩ | ⟨a, x, rest, hin⟩
    · exact .micro hp (step_undisturbed hp hu).symm
    · exact step_rst hin ▸ .rst rest hin
    · exact step_agent hin ▸ .agent a x rest hin
  case pos =>
    cases hin : s.inputs with
    | nil => exact step_idle hp (.inl ⟨hin, rfl⟩) ▸ .wait [] hp
    | cons input rest =>
      cases input with
      | tick => exact step_idle hp (.inr hin) ▸ .wait rest hp
      | rst => exact step_rst hin ▸ .rst rest hin
      | agent a x => exact step_agent hin ▸ .agent a x rest hin
      | present w => exact step_present hp hin ▸ .present w rest hp
      | txn x =>
        cases x with
        | read off => exact step_read hp hin ▸ .read off rest hp
        | write off wdata =>
          by_cases hoff : off = 4
          · subst hoff
            exact .cmdWrite wdata rest hp hin (step_cmdWrite hp hin).symm
          · exact step_regWrite hp hin hoff ▸ .regWrite off wdata rest hp hin

/-- The cases of a step that answers a next state. -/
theorem step_next_cases {s t : State} (h : step s = .next t) : StepCase s (.next t) := h ▸ step_cases s

/-- The next state after a `CMD` write: that of its command, or that of an illegal command. -/
theorem command_next_cases {w : Word} {s t : State} (h : command w s = .next t) :
    (∃ i, decode w = .instr i ∧ t = encodeCommand i.base s) ∨ t = illegalCommand s := by
  rcases command_cases w s with ⟨i, hdecode, hw⟩ | ⟨why, -, hw⟩
  · exact .inl ⟨i, hdecode, Host.Outcome.next.inj (h.symm.trans hw)⟩
  · exact .inr (Host.Outcome.next.inj (h.symm.trans hw))

/-- A launch ends the command as the command level does, or begins its extraction (41_accumulator.md R100). -/
theorem launch_cases (w : Word) (s : State) :
    command w s = .next (launch w s) ∨
    ∃ b, s.badDestination = false ∧ launch w s = extractState b s 0 := by
  cases hw : decode w with
  | reserved why =>
    rw [command_of_reserved hw, launch_of_reserved hw]
    exact .inl rfl
  | instr i =>
    obtain rfl := (decode_eq_instr_iff w i).1 hw
    rw [command_of_instr hw, launch_encode]
    cases hb : s.badDestination with
    | true => exact .inl (by rw [launchBase_bad i.base s hb])
    | false => exact .inr ⟨i.base, rfl, launchBase_good i.base s hb⟩

/-! ### The idle block, the `CMD` write and other agents -/

/-- Settles O60: the step takes the input away (`step_idle`) and does nothing else. -/
theorem idleBlockWaits : Obligations.IdleBlockWaits := by
  unfold Obligations.IdleBlockWaits
  exact fun s rest hp hin => step_idle hp hin

/-- Settles O8: the step is the command of the word (`step_cmdWrite`), which is `exec` of what it decodes to. -/
theorem stepRunsTheDecodedCommand : Obligations.StepRunsTheDecodedCommand := by
  unfold Obligations.StepRunsTheDecodedCommand
  intro s rest w i hp hin hw
  rw [step_cmdWrite hp hin, command_of_instr hw, exec_eq]
  rfl

/-- Settles O59: `read_write`, `write_wf` and `eq_of_read_eq` of Memory. -/
theorem memoryReadsTheLastWrite : Obligations.MemoryReadsTheLastWrite := by
  unfold Obligations.MemoryReadsTheLastWrite
  refine ⟨fun m a c x => ?_, fun m a x => Memory.write_wf a x, fun m m' => Memory.eq_of_read_eq⟩
  rw [Memory.read_write]
  simp only [eq_comm]

/-- Settles O16: the step is one write to memory (`step_agent`), which is read back by `memoryReadsTheLastWrite`. -/
theorem otherAgentWritesOneByte : Obligations.OtherAgentWritesOneByte := by
  unfold Obligations.OtherAgentWritesOneByte
  intro s rest a x hin
  obtain ⟨hread, -, -⟩ := memoryReadsTheLastWrite
  exact ⟨_, step_agent hin, (hread s.mem a a x).trans (if_pos rfl),
    fun c hc => (hread s.mem a c x).trans (if_neg hc), rfl⟩

/-! ### The result registers over every step (10_state.md R26, R29) -/

/-- What a step from `s` to `t` does to the result registers: nothing, or it ends a command. -/
def KeepsResultsOrEnds (s t : State) : Prop :=
  (t.len = s.len ∧ t.status = s.status) ∨ (t.phase = .idle ∧ t.resp = some .wrote ∧ t.done = true)

/-- A command word ends its command. -/
theorem command_keepsResultsOrEnds {w : Word} {s t : State} (h : command w s = .next t) :
    KeepsResultsOrEnds s t := by
  rcases command_next_cases h with ⟨i, -, rfl⟩ | rfl
  · obtain ⟨hphase, hresp, -⟩ := encodeCommand_ends i.base s
    exact .inr ⟨hphase, hresp, encodeCommand_done i.base s⟩
  · exact .inr ⟨rfl, rfl, illegalCommand_done s⟩

theorem launch_keepsResultsOrEnds (w : Word) (s : State) : KeepsResultsOrEnds s (launch w s) := by
  rcases launch_cases w s with h | ⟨b, -, h⟩
  · exact command_keepsResultsOrEnds h
  · rw [h]
    exact .inl ⟨rfl, rfl⟩

theorem checkStep_keepsResultsOrEnds (s : State) : KeepsResultsOrEnds s (checkStep s) := by
  rw [checkStep]
  split
  · exact .inr ⟨rfl, rfl, State.raiseFail_done s .capacityExceeded⟩
  · exact .inl ⟨rfl, rfl⟩

theorem afterWrite_keepsResultsOrEnds (s : State) : KeepsResultsOrEnds s (afterWrite s) := by
  rw [afterWrite]
  split
  · exact .inl ⟨rfl, rfl⟩
  · split
    · exact .inl ⟨rfl, rfl⟩
    · exact .inr ⟨rfl, rfl, State.finish_done s s.cnt⟩

theorem microStep_keepsResultsOrEnds {s t : State} (h : microStep s = .next t) : KeepsResultsOrEnds s t := by
  cases hphase : s.phase with
  | idle =>
    obtain rfl := Host.Outcome.next.inj ((microStep_of_idle hphase).symm.trans h)
    exact .inl ⟨rfl, rfl⟩
  | extract =>
    obtain ⟨sc, rfl⟩ := storeDigit_eq_next ((microStep_of_extract hphase).symm.trans h)
    exact .inl ⟨rfl, rfl⟩
  | check =>
    obtain rfl := Host.Outcome.next.inj ((microStep_of_check hphase).symm.trans h)
    exact checkStep_keepsResultsOrEnds s
  | write =>
    obtain ⟨x, -, rfl⟩ := writeStep_eq_next ((microStep_of_write hphase).symm.trans h)
    exact afterWrite_keepsResultsOrEnds (s.digitWritten x)
  | termw =>
    obtain rfl := Host.Outcome.next.inj ((microStep_of_termw hphase).symm.trans h)
    exact .inr ⟨rfl, rfl, State.finish_done _ _⟩

/-- A host write to another register than `CMD` does not touch the results (30_encoding.md R73). -/
theorem hostWriteTxn_results (off : BitVec 3) (wdata : Word) (s : State) :
    (hostWriteTxn off wdata s).len = s.len ∧ (hostWriteTxn off wdata s).status = s.status := by
  rw [hostWriteTxn, State.regWrite_eq]
  exact ⟨rfl, rfl⟩

theorem step_keepsResultsOrEnds {s t : State} (h : step s = .next t) (hrst : ∀ rest, s.inputs ≠ .rst :: rest) :
    KeepsResultsOrEnds s t := by
  cases step_next_cases h with
  | rst rest hin => exact absurd hin (hrst rest)
  | agent a x rest _ => exact .inl ⟨rfl, rfl⟩
  | micro _ hstep => exact microStep_keepsResultsOrEnds (s := s.take _) hstep
  | wait rest _ => exact .inl ⟨rfl, rfl⟩
  | read off rest _ => exact .inl ⟨rfl, rfl⟩
  | regWrite off wdata rest _ _ => exact .inl (hostWriteTxn_results off wdata (s.take rest))
  | cmdWrite w rest _ _ hstep => exact command_keepsResultsOrEnds (s := s.take rest) hstep
  | present w rest _ => exact launch_keepsResultsOrEnds w (s.take rest)

/-- Settles O13: every step but a reset keeps `LEN` and `STATUS`, with `DONE` in it, or ends a command and sets `DONE`
(`step_keepsResultsOrEnds`). -/
theorem resultsChangeOnlyWhenACommandEnds : Obligations.ResultsChangeOnlyWhenACommandEnds := by
  unfold Obligations.ResultsChangeOnlyWhenACommandEnds
  intro s t hstep hrst
  rcases step_keepsResultsOrEnds hstep hrst with ⟨hlen, hstatus⟩ | ⟨hphase, hresp, hdone⟩
  · have hdone : t.done = s.done := congrArg (fun st => st.getLsbD 0) hstatus
    exact ⟨fun h => hdone.trans h, fun hchange => absurd hchange (by simp [hlen, hstatus])⟩
  · exact ⟨fun _ => hdone, fun _ => ⟨hphase, hresp, hdone⟩⟩

/-! ### The operand registers over every step (10_state.md R29) -/

/-- The operand registers are the same in `s` and `t`. -/
def SameOperands (s t : State) : Prop := t.value = s.value ∧ t.dst = s.dst ∧ t.cap = s.cap ∧ t.cfg = s.cfg

theorem command_sameOperands {w : Word} {s t : State} (h : command w s = .next t) : SameOperands s t := by
  rcases command_next_cases h with ⟨i, -, rfl⟩ | rfl
  · obtain ⟨hvalue, hdst, hcap, hcfg, -⟩ := encodeCommand_keeps i.base s
    exact ⟨hvalue, hdst, hcap, hcfg⟩
  · exact ⟨rfl, rfl, rfl, rfl⟩

theorem launch_sameOperands (w : Word) (s : State) : SameOperands s (launch w s) := by
  rcases launch_cases w s with h | ⟨b, -, h⟩
  · exact command_sameOperands h
  · rw [h]
    exact ⟨rfl, rfl, rfl, rfl⟩

theorem microStep_sameOperands {s t : State} (hp : s.phase ≠ .idle) (h : microStep s = .next t) :
    SameOperands s t :=
  have hheld := microStep_holdsHostPort hp h
  ⟨hheld.value, hheld.dst, hheld.cap, hheld.cfg⟩

/-- The registers at the offsets above 3 are not operand registers (30_encoding.md R70, R73). -/
theorem hostWriteTxn_sameOperands {off : BitVec 3} (wdata : Word) (s : State) (hoff : 3 < off.toNat) :
    SameOperands s (hostWriteTxn off wdata s) := by
  have hne : ∀ r : HostReg, r.offset.toNat ≤ 3 → HostReg.ofOff off ≠ r := by
    rintro r hr hoff_eq
    rw [(HostReg.ofOff_eq_iff off r).1 hoff_eq] at hoff
    omega
  rw [hostWriteTxn, State.regWrite_eq]
  exact ⟨if_neg (hne .value (by decide)), if_neg (hne .dst (by decide)), if_neg (hne .cap (by decide)),
    if_neg (hne .cfg (by decide))⟩

/-- What a step can change the operand registers by. -/
theorem step_sameOperands {s t : State} (h : step s = .next t) :
    SameOperands s t ∨ (∃ rest, s.inputs = .rst :: rest) ∨
    s.phase = .idle ∧ ∃ off wdata rest, off.toNat ≤ 3 ∧ s.inputs = .txn (.write off wdata) :: rest := by
  cases step_next_cases h with
  | rst rest hin => exact .inr (.inl ⟨rest, hin⟩)
  | agent a x rest _ => exact .inl ⟨rfl, rfl, rfl, rfl⟩
  | micro hp hstep => exact .inl (microStep_sameOperands (s := s.take _) hp hstep)
  | wait rest _ => exact .inl ⟨rfl, rfl, rfl, rfl⟩
  | read off rest _ => exact .inl ⟨rfl, rfl, rfl, rfl⟩
  | regWrite off wdata rest hp hin =>
    by_cases hoff : off.toNat ≤ 3
    · exact .inr (.inr ⟨hp, off, wdata, rest, hoff, hin⟩)
    · exact .inl (hostWriteTxn_sameOperands wdata (s.take rest) (Nat.not_le.1 hoff))
  | cmdWrite w rest _ _ hstep => exact .inl (command_sameOperands (s := s.take rest) hstep)
  | present w rest _ => exact .inl (launch_sameOperands w (s.take rest))

/-- Settles O14: by the cases of a step (`step_sameOperands`). -/
theorem operandsChangeOnlyByTheHost : Obligations.OperandsChangeOnlyByTheHost := by
  unfold Obligations.OperandsChangeOnlyByTheHost
  intro s t hstep hchange
  rcases step_sameOperands hstep with ⟨hvalue, hdst, hcap, hcfg⟩ | hcause
  · exact absurd hchange (by simp [hvalue, hdst, hcap, hcfg])
  · exact hcause

/-! ### Memory over every step (20_memory.md R50, R62) -/

/-- A command word changes memory only when its command succeeds. -/
theorem command_mem {w : Word} {s t : State} (h : command w s = .next t) :
    t.mem = s.mem ∨ ∃ i, decode w = .instr i ∧ Succeeds i.base s := by
  rcases command_next_cases h with ⟨i, hdecode, rfl⟩ | rfl
  · by_cases hs : Succeeds i.base s
    · exact .inr ⟨i, hdecode, hs⟩
    · exact .inl (encodeCommand_mem_of_not_succeeds hs)
  · exact .inl rfl

/-- The launch writes no byte, whatever the word. -/
theorem launch_mem (w : Word) (s : State) : (launch w s).mem = s.mem := by
  cases hw : decode w with
  | reserved why => rw [launch_of_reserved hw]; rfl
  | instr i =>
    obtain rfl := (decode_eq_instr_iff w i).1 hw
    rw [launch_encode, launchBase]
    split
    · rfl
    · rfl

theorem hostWriteTxn_mem (off : BitVec 3) (wdata : Word) (s : State) : (hostWriteTxn off wdata s).mem = s.mem := by
  rw [hostWriteTxn, State.regWrite_eq]

theorem checkStep_mem (s : State) : (checkStep s).mem = s.mem := by
  rw [checkStep]
  split
  · rfl
  · rfl

/-- The micro-steps that write a byte are those of `WRITE` and `TERMW`. -/
theorem microStep_mem {s t : State} (h : microStep s = .next t) :
    t.mem = s.mem ∨ s.phase = .write ∨ s.phase = .termw := by
  cases hphase : s.phase with
  | idle =>
    obtain rfl := Host.Outcome.next.inj ((microStep_of_idle hphase).symm.trans h)
    exact .inl rfl
  | extract =>
    obtain ⟨sc, rfl⟩ := storeDigit_eq_next ((microStep_of_extract hphase).symm.trans h)
    exact .inl rfl
  | check =>
    obtain rfl := Host.Outcome.next.inj ((microStep_of_check hphase).symm.trans h)
    exact .inl (checkStep_mem s)
  | write => exact .inr (.inl rfl)
  | termw => exact .inr (.inr rfl)

/-- Settles O15: by the cases of a step; of the micro-steps only those of `WRITE` and `TERMW` write
(`microStep_mem`), of the command words only those that succeed (`command_mem`). -/
theorem memoryChangesOnlyByWrites : Obligations.MemoryChangesOnlyByWrites := by
  unfold Obligations.MemoryChangesOnlyByWrites
  intro s t h hchange
  cases step_next_cases h with
  | rst rest _ => exact absurd rfl hchange
  | agent a x rest hin => exact .inl ⟨a, x, rest, hin⟩
  | micro _ hstep =>
    have hphase := (microStep_mem (s := s.take _) hstep).resolve_left hchange
    exact .inr (hphase.imp_right .inl)
  | wait rest _ => exact absurd rfl hchange
  | read off rest _ => exact absurd rfl hchange
  | regWrite off wdata rest _ _ => exact absurd (hostWriteTxn_mem off wdata (s.take rest)) hchange
  | cmdWrite w rest hp hin hstep =>
    obtain ⟨i, hdecode, hs⟩ := (command_mem (s := s.take rest) hstep).resolve_left hchange
    exact .inr (.inr (.inr ⟨hp, w, i, rest, hin, hdecode, hs⟩))
  | present w rest _ => exact absurd (launch_mem w (s.take rest)) hchange

end Sys2Proof.Machine
end

section
/-! The invariant: every outcome of a command and every micro-step keeps it, the counters and the issued bytes of a
command in progress, and the end of every command (10_state.md R39, 41_accumulator.md R105, 42_buffer_write.md R119,
70_reset_and_hazards.md R185). -/

namespace Sys2Proof.Machine

open Safety

/-! ### The result registers (10_state.md R39) -/

theorem resultInv_raiseFail (s : State) (c : FailCode) : ResultInv (s.raiseFail c) := by
  have hstatus : failStatus c ∈ [0x0#3, 0x1#3, 0x3#3, 0x5#3, 0x7#3] := by cases c <;> decide
  refine ⟨by simp, iff_of_true rfl (.inl ?_), hstatus⟩
  rw [State.raiseFail_err]
  exact FailCode.code_ne_zero c

theorem resultInv_finish (s : State) {n : BitVec 4} (hpos : 0 < n.toNat) (hn : n.toNat ≤ 10) :
    ResultInv (s.finish n) := by
  have hlen : (s.finish n).len ≠ 0 := by
    rintro h0
    rw [State.finish_len] at h0
    rw [h0] at hpos
    exact Nat.lt_irrefl 0 hpos
  have hstatus : successStatus ∈ [0x0#3, 0x1#3, 0x3#3, 0x5#3, 0x7#3] := by decide
  exact ⟨hn, iff_of_false hlen (by simp), hstatus⟩

/-- The finish of 42 R118 from the registers that extraction leaves. -/
theorem resultInv_finish_of_extracted {s : State} (h : ExtractedInv s) : ResultInv (s.finish s.cnt) := by
  obtain ⟨-, hcnt, -, -⟩ := h
  exact resultInv_finish s (hcnt.symm ▸ digits_pos s.base s) (hcnt.symm ▸ digits_le_ten s.base s)

theorem resultInv_resetEvent (s : State) : ResultInv s.resetEvent :=
  have hstatus : 0 ∈ [0x0#3, 0x1#3, 0x3#3, 0x5#3, 0x7#3] := by decide
  ⟨by simp, iff_of_true rfl (.inr s.resetEvent_done), hstatus⟩

theorem resultInv_encodeCommand (b : Base) (s : State) : ResultInv (encodeCommand b s) := by
  rcases encodeCommand_cases b s with ⟨-, h⟩ | ⟨-, -, h⟩ | ⟨-, -, h⟩
  · rw [h]
    exact resultInv_raiseFail _ _
  · rw [h]
    exact resultInv_raiseFail _ _
  · have hn := digits_toNat b s
    rw [h]
    exact resultInv_finish _ (hn.symm ▸ digits_pos b s) (hn.symm ▸ digits_le_ten b s)

/-! ### The invariant with no command in progress -/

theorem good_of_idle {s : State} (hp : s.phase = .idle) (hres : ResultInv s) (hmem : Memory.wf s.mem = true) :
    Good s := by
  refine ⟨hres, hmem, ?_⟩
  rw [CommandInv, hp]
  trivial

theorem encodeCommand_mem_wf (b : Base) {s : State} (hmem : Memory.wf s.mem = true) :
    Memory.wf (encodeCommand b s).mem = true := by
  rcases encodeCommand_outcome b s with ⟨-, -, h, -⟩ | ⟨-, -, h, -⟩
  · rw [h]
    exact Memory.writeAll_wf _ hmem
  · rwa [h]

theorem good_encodeCommand (b : Base) {s : State} (hmem : Memory.wf s.mem = true) : Good (encodeCommand b s) := by
  obtain ⟨hphase, -, -⟩ := encodeCommand_ends b s
  exact good_of_idle hphase (resultInv_encodeCommand b s) (encodeCommand_mem_wf b hmem)

theorem good_of_command {w : Word} {s t : State} (hmem : Memory.wf s.mem = true) (h : command w s = .next t) :
    Good t := by
  rcases command_next_cases h with ⟨i, -, rfl⟩ | rfl
  · exact good_encodeCommand i.base hmem
  · exact good_of_idle rfl (resultInv_raiseFail _ _) hmem

/-! ### Extraction (41_accumulator.md R105)

A good state in `EXTRACT` is the closed form `extractState` of itself: it holds what extraction from its own operands
gives. -/

/-- Filling the scratch array with what it holds changes nothing. -/
theorem fillScratch_of_holds {s : State} {n : Nat} (h : ScratchHolds s n) :
    fillScratch s.base.radix s.value.toNat s.upper s.scratch n = s.scratch := by
  refine Vector.ext fun i hi => Option.some.inj ?_
  rw [← Vector.getElem?_eq_getElem, ← Vector.getElem?_eq_getElem, fillScratch_getElem?]
  split
  next hlt => exact (h i hlt.1).symm
  next => rfl

theorem extractState_of_commandInv {s : State} (h : CommandInv s) (hp : s.phase = .extract) :
    s.badDestination = false ∧ s.cnt.toNat < digits s.base s ∧ extractState s.base s s.cnt.toNat = s := by
  rw [CommandInv, hp] at h
  obtain ⟨hb, hcnt, hacc, hscratch, hissued⟩ := h
  refine ⟨hb, hcnt, ?_⟩
  rw [extractState, if_pos hcnt, ← hacc, fillScratch_of_holds hscratch, ← hp, BitVec.ofNat_toNat,
    BitVec.ofNat_toNat, BitVec.setWidth_eq, BitVec.setWidth_eq, State.beginCommand, ← hissued]

theorem commandInv_extractState {b : Base} {s : State} {k : Nat} (hb : s.badDestination = false)
    (hk : k ≤ digits b s) : CommandInv (extractState b s k) := by
  have hdepth : k ≤ Config.scratchDepth := Nat.le_trans hk (digits_le_ten b s)
  have hcnt : (extractState b s k).cnt.toNat = k := counter_toNat hdepth
  have hscratch : ScratchHolds (extractState b s k) (extractState b s k).cnt.toNat := by
    intro i hi
    rw [hcnt] at hi
    exact readScratch_fillScratch b.radix s.value.toNat s.upper s.scratch hdepth hi
  unfold CommandInv
  by_cases hlt : k < digits b s
  · have hphase : (extractState b s k).phase = .extract := if_pos hlt
    rw [hphase]
    refine ⟨hb, hcnt.symm ▸ hlt, ?_, hscratch, rfl⟩
    rw [hcnt]
    exact acc_toNat b s k
  · obtain rfl : k = digits b s := Nat.le_antisymm hk (Nat.not_lt.1 hlt)
    have hphase : (extractState b s (digits b s)).phase = .check := if_neg hlt
    rw [hphase]
    exact ⟨⟨hb, hcnt, extractState_acc_eq_zero b s, hscratch⟩, rfl⟩

theorem good_extractState {b : Base} {s : State} {k : Nat} (hres : ResultInv s) (hmem : Memory.wf s.mem = true)
    (hb : s.badDestination = false) (hk : k ≤ digits b s) : Good (extractState b s k) :=
  ⟨hres, hmem, commandInv_extractState hb hk⟩

theorem good_launch (w : Word) {s : State} (hres : ResultInv s) (hmem : Memory.wf s.mem = true) :
    Good (launch w s) := by
  rcases launch_cases w s with h | ⟨b, hb, h⟩
  · exact good_of_command hmem h
  · rw [h]
    exact good_extractState hres hmem hb (Nat.zero_le _)

/-! ### Copy-out (42_buffer_write.md R115 to R119) -/

/-- A command past its check: the digits are extracted and fit, and the port has issued the first `WIDX` of the
command's writes. -/
structure CopyOutInv (s : State) : Prop where
  extracted : ExtractedInv s
  room : s.cnt.toNat + s.termCount ≤ s.cap.toNat
  widx_le : s.widx.toNat ≤ s.cnt.toNat
  issued : s.issued = (commandWrites s.base s).take s.widx.toNat

theorem commandInv_iff_of_check {s : State} (hp : s.phase = .check) :
    CommandInv s ↔ ExtractedInv s ∧ s.issued = [] := by
  rw [CommandInv, hp]

theorem commandInv_iff_of_write {s : State} (hp : s.phase = .write) :
    CommandInv s ↔ CopyOutInv s ∧ s.widx.toNat < s.cnt.toNat := by
  rw [CommandInv, hp]
  exact ⟨fun ⟨hext, hroom, hlt, hissued⟩ => ⟨⟨hext, hroom, Nat.le_of_lt hlt, hissued⟩, hlt⟩,
    fun ⟨hcopy, hlt⟩ => ⟨hcopy.extracted, hcopy.room, hlt, hcopy.issued⟩⟩

theorem commandInv_iff_of_termw {s : State} (hp : s.phase = .termw) :
    CommandInv s ↔ CopyOutInv s ∧ s.widx = s.cnt ∧ s.term = true := by
  rw [CommandInv, hp]
  exact ⟨fun ⟨hext, hroom, heq, hterm, hissued⟩ =>
      ⟨⟨hext, hroom, Nat.le_of_eq (congrArg BitVec.toNat heq), hissued⟩, heq, hterm⟩,
    fun ⟨hcopy, heq, hterm⟩ => ⟨hcopy.extracted, hcopy.room, heq, hterm, hcopy.issued⟩⟩

theorem copyOutInv_of_commandInv {s : State} (h : CommandInv s) (hp : s.phase = .write ∨ s.phase = .termw) :
    CopyOutInv s := by
  rcases hp with hp | hp
  · exact ((commandInv_iff_of_write hp).1 h).1
  · exact ((commandInv_iff_of_termw hp).1 h).1

/-- A write step writes the next digit character of the command, which its scratch entry holds, and `WIDX` counts it. -/
theorem CopyOutInv.writeStep_eq {s : State} (h : CopyOutInv s) (hlt : s.widx.toNat < s.cnt.toNat) :
    ∃ x, writeStep s = .next (afterWrite (s.digitWritten x)) ∧ CopyOutInv (s.digitWritten x) ∧
      (s.digitWritten x).widx.toNat = s.widx.toNat + 1 := by
  obtain ⟨-, hcnt, -, hscratch⟩ := h.extracted
  have hdigits := digits_le_ten s.base s
  have hread := hscratch (s.cnt.toNat - 1 - s.widx.toNat) (by omega)
  have hsucc : (s.widx + 1).toNat = s.widx.toNat + 1 := counter_succ (by omega)
  have hget : (commandWrites s.base s)[s.widx.toNat]? = some (s.bufferAddr s.widx.toNat,
      digitChar s.base.radix s.value.toNat (s.cnt.toNat - 1 - s.widx.toNat) s.upper) := by
    rw [commandWrites_getElem?, if_pos (by omega), if_pos (by omega), hcnt]
  refine ⟨_, writeStep_of_readScratch (BitVec.lt_def.2 hlt) hread,
    ⟨h.extracted, h.room, hsucc.symm ▸ hlt, ?_⟩, hsucc⟩
  show s.issued ++ _ = (commandWrites s.base s).take (s.widx + 1).toNat
  rw [hsucc, commandWrites_take_succ s.base s hget, h.issued]

/-! ### How many micro-steps a command still takes -/

/-- A bound for the micro-steps that a command in progress still takes (70_reset_and_hazards.md R184): one for each
digit to extract, the check, one for each digit to write, and the terminator. -/
def microStepsLeft (s : State) : Nat :=
  match s.phase with
  | .idle => 0
  | .extract => 2 * digits s.base s - s.cnt.toNat + 2
  | .check => digits s.base s + 2
  | .write => s.cnt.toNat - s.widx.toNat + 1
  | .termw => 1

theorem microStepsLeft_of_extract {s : State} (hp : s.phase = .extract) :
    microStepsLeft s = 2 * digits s.base s - s.cnt.toNat + 2 := by
  rw [microStepsLeft, hp]

theorem microStepsLeft_of_check {s : State} (hp : s.phase = .check) : microStepsLeft s = digits s.base s + 2 := by
  rw [microStepsLeft, hp]

theorem microStepsLeft_of_write {s : State} (hp : s.phase = .write) :
    microStepsLeft s = s.cnt.toNat - s.widx.toNat + 1 := by
  rw [microStepsLeft, hp]

theorem microStepsLeft_of_termw {s : State} (hp : s.phase = .termw) : microStepsLeft s = 1 := by
  rw [microStepsLeft, hp]

theorem microStepsLeft_extractState {b : Base} {s : State} {k : Nat} (hk : k ≤ digits b s) :
    microStepsLeft (extractState b s k) = 2 * digits b s - k + 2 := by
  have hcnt : (extractState b s k).cnt.toNat = k := counter_toNat (Nat.le_trans hk (digits_le_ten b s))
  by_cases hlt : k < digits b s
  · rw [microStepsLeft_of_extract (if_pos hlt), hcnt]
    rfl
  · rw [microStepsLeft_of_check (if_neg hlt)]
    show digits b s + 2 = _
    omega

/-! ### Every micro-step keeps the invariant and comes nearer to the end -/

/-- From a good `s` the micro-step answers a good state with fewer micro-steps left. -/
def Progresses (s : State) : Prop :=
  ∃ t, microStep s = .next t ∧ Good t ∧ microStepsLeft t < microStepsLeft s

/-- The rest of a write step: on to the next digit, to the terminator, or to the finish. -/
theorem good_afterWrite {s : State} (hres : ResultInv s) (hmem : Memory.wf s.mem = true) (h : CopyOutInv s)
    (hp : s.phase = .write) :
    Good (afterWrite s) ∧ microStepsLeft (afterWrite s) ≤ s.cnt.toNat - s.widx.toNat + 1 := by
  rw [afterWrite]
  split
  next hlt =>
    exact ⟨⟨hres, hmem, (commandInv_iff_of_write hp).2 ⟨h, hlt⟩⟩, Nat.le_of_eq (microStepsLeft_of_write hp)⟩
  next hge =>
    have heq : s.widx = s.cnt :=
      BitVec.eq_of_toNat_eq (Nat.le_antisymm h.widx_le (Nat.not_lt.1 (mt BitVec.lt_def.2 hge)))
    split
    next hterm =>
      have hcopy : CopyOutInv { s with phase := .termw } := ⟨h.extracted, h.room, h.widx_le, h.issued⟩
      refine ⟨⟨hres, hmem, (commandInv_iff_of_termw rfl).2 ⟨hcopy, heq, hterm⟩⟩, ?_⟩
      rw [microStepsLeft_of_termw rfl]
      omega
    next => exact ⟨good_of_idle rfl (resultInv_finish_of_extracted h.extracted) hmem, Nat.zero_le _⟩

theorem good_checkStep {s : State} (hres : ResultInv s) (hmem : Memory.wf s.mem = true) (h : CommandInv s)
    (hp : s.phase = .check) : Good (checkStep s) ∧ microStepsLeft (checkStep s) ≤ digits s.base s + 1 := by
  obtain ⟨hext, hissued⟩ := (commandInv_iff_of_check hp).1 h
  have ⟨_, hcnt, _, _⟩ := hext
  have hpos := digits_pos s.base s
  rw [checkStep]
  split
  next => exact ⟨good_of_idle rfl (resultInv_raiseFail s _) hmem, Nat.zero_le _⟩
  next hroom =>
    rw [cap_lt_need, Nat.not_lt] at hroom
    have hcopy : CopyOutInv { s with widx := 0, phase := .write } := ⟨hext, hroom, Nat.zero_le _, hissued⟩
    refine ⟨⟨hres, hmem, (commandInv_iff_of_write rfl).2 ⟨hcopy, hcnt.symm ▸ hpos⟩⟩, ?_⟩
    rw [microStepsLeft_of_write rfl]
    exact Nat.succ_le_succ (Nat.le_of_eq hcnt)

theorem progresses_extract {s : State} (hg : Good s) (hp : s.phase = .extract) : Progresses s := by
  obtain ⟨hres, hmem, hcommand⟩ := hg
  obtain ⟨hb, hcnt, hself⟩ := extractState_of_commandInv hcommand hp
  have hstep := microStep_extractState s.base s hcnt
  have hleft := microStepsLeft_extractState (Nat.le_of_lt hcnt)
  rw [hself] at hstep hleft
  refine ⟨_, hstep, good_extractState hres hmem hb hcnt, ?_⟩
  rw [hleft, microStepsLeft_extractState hcnt]
  omega

theorem progresses_check {s : State} (hg : Good s) (hp : s.phase = .check) : Progresses s := by
  obtain ⟨hres, hmem, hcommand⟩ := hg
  obtain ⟨hgood, hleft⟩ := good_checkStep hres hmem hcommand hp
  refine ⟨_, microStep_of_check hp, hgood, ?_⟩
  rw [microStepsLeft_of_check hp]
  exact Nat.lt_succ_of_le hleft

theorem progresses_write {s : State} (hg : Good s) (hp : s.phase = .write) : Progresses s := by
  obtain ⟨hres, hmem, hcommand⟩ := hg
  obtain ⟨hcopy, hlt⟩ := (commandInv_iff_of_write hp).1 hcommand
  obtain ⟨x, hstep, hcopied, hsucc⟩ := hcopy.writeStep_eq hlt
  have hmem' : Memory.wf (s.digitWritten x).mem = true := Memory.write_wf _ _ hmem
  obtain ⟨hgood, hleft⟩ := good_afterWrite (s := s.digitWritten x) hres hmem' hcopied hp
  have hcnt : (s.digitWritten x).cnt = s.cnt := rfl
  refine ⟨_, (microStep_of_write hp).trans hstep, hgood, ?_⟩
  rw [microStepsLeft_of_write hp]
  rw [hsucc, hcnt] at hleft
  omega

theorem progresses_termw {s : State} (hg : Good s) (hp : s.phase = .termw) : Progresses s := by
  obtain ⟨hres, hmem, hcommand⟩ := hg
  have hext := (copyOutInv_of_commandInv hcommand (.inr hp)).extracted
  have hfinish := resultInv_finish_of_extracted
    (s := s.memWrite (s.dst + s.cnt.setWidth 32) Config.termByte) hext
  refine ⟨_, microStep_of_termw hp, good_of_idle rfl hfinish (Memory.write_wf _ _ hmem), ?_⟩
  rw [microStepsLeft_of_termw hp]
  exact Nat.zero_lt_one

/-- The micro-step of a good state with a command in progress, by its phase. -/
theorem progresses_of_good {s : State} (hg : Good s) (hp : s.phase ≠ .idle) : Progresses s := by
  cases hphase : s.phase with
  | idle => exact absurd hphase hp
  | extract => exact progresses_extract hg hphase
  | check => exact progresses_check hg hphase
  | write => exact progresses_write hg hphase
  | termw => exact progresses_termw hg hphase

/-! ### Every step keeps the invariant -/

/-- A host write to another register than `CMD` on an idle block. -/
theorem good_hostWriteTxn (off : BitVec 3) (wdata : Word) {s : State} (hg : Good s) (hp : s.phase = .idle) :
    Good (hostWriteTxn off wdata s) := by
  obtain ⟨hres, hmem, -⟩ := hg
  rw [hostWriteTxn, State.regWrite_eq]
  exact good_of_idle hp hres hmem

/-- Settles O55: by the cases of a step. A micro-step by its phase (`progresses_of_good`); a command word and a launch
end idle with legal results or begin the extraction; the other steps touch nothing that the invariant speaks of, or
write a byte of memory, or reset the results. -/
theorem everyStepKeepsTheInvariant : Obligations.EveryStepKeepsTheInvariant := by
  unfold Obligations.EveryStepKeepsTheInvariant
  intro s hg
  have ⟨hres, hmem, hcommand⟩ := hg
  have hcases := step_cases s
  generalize step s = o at hcases ⊢
  cases hcases with
  | rst rest _ => exact ⟨_, rfl, good_of_idle rfl (resultInv_resetEvent _) hmem⟩
  | agent a x rest _ => exact ⟨_, rfl, hres, Memory.write_wf a x hmem, hcommand⟩
  | micro hp h =>
    obtain ⟨t, ht, hgood, -⟩ := progresses_of_good (s := s.take _) hg hp
    exact ⟨t, h.symm.trans ht, hgood⟩
  | wait rest _ => exact ⟨_, rfl, hg⟩
  | read off rest _ => exact ⟨_, rfl, hg⟩
  | regWrite off wdata rest hp _ => exact ⟨_, rfl, good_hostWriteTxn off wdata (s := s.take rest) hg hp⟩
  | cmdWrite w rest _ _ h =>
    obtain ⟨t, ht, -⟩ := command_done w (s.take rest)
    exact ⟨t, h.symm.trans ht, good_of_command (s := s.take rest) hmem ht⟩
  | present w rest _ => exact ⟨_, rfl, good_launch w (s := s.take rest) hres hmem⟩

/-- Settles O54: nothing is in progress, `LEN` and `STATUS` are 0 and memory is empty. -/
theorem resetStateIsGood : Obligations.ResetStateIsGood := by
  unfold Obligations.ResetStateIsGood
  have hres : ResultInv State.reset := by decide
  exact good_of_idle rfl hres rfl

/-! ### Every command in progress ends (70_reset_and_hazards.md R185) -/

theorem microStepsLeft_le {s : State} (hg : Good s) (hp : s.phase ≠ .idle) : microStepsLeft s ≤ 22 := by
  obtain ⟨-, -, hcommand⟩ := hg
  have hdigits := digits_le_ten s.base s
  cases hphase : s.phase with
  | idle => exact absurd hphase hp
  | extract =>
    rw [microStepsLeft_of_extract hphase]
    omega
  | check =>
    rw [microStepsLeft_of_check hphase]
    omega
  | write =>
    obtain ⟨-, hcnt, -, -⟩ := (copyOutInv_of_commandInv hcommand (.inl hphase)).extracted
    rw [microStepsLeft_of_write hphase]
    omega
  | termw =>
    rw [microStepsLeft_of_termw hphase]
    decide

/-- An undisturbed step of a good state with a command in progress: it comes nearer to the end, uses up a clock edge,
and completes the `CMD` write when it ends the command. -/
theorem step_progresses {s : State} (hg : Good s) (hp : s.phase ≠ .idle) (hu : undisturbed 1 s.inputs = true) :
    ∃ t, step s = .next t ∧ Good t ∧ microStepsLeft t < microStepsLeft s ∧
      t.inputs = afterMicroStep s.inputs ∧ (t.phase = .idle → t.resp = some .wrote) := by
  obtain ⟨t, ht, hgood, hless⟩ := progresses_of_good (s := s.take (afterMicroStep s.inputs)) hg hp
  have hheld := microStep_holdsHostPort (s := s.take (afterMicroStep s.inputs)) hp ht
  exact ⟨t, (step_undisturbed hp hu).trans ht, hgood, hless, hheld.inputs, hheld.ends⟩

theorem run_ends_of_good {n : Nat} {s : State} (hg : Good s) (hp : s.phase ≠ .idle) (hleft : microStepsLeft s ≤ n)
    (hu : undisturbed n s.inputs = true) :
    ∃ k t, k ≤ n ∧ Host.Core.run Sys2Proof.core k s = .next t ∧ t.phase = .idle ∧ t.resp = some .wrote ∧
      t.inputs = afterMicroSteps k s.inputs := by
  induction n generalizing s with
  | zero =>
    obtain ⟨t, -, -, hless⟩ := progresses_of_good hg hp
    omega
  | succ n ih =>
    obtain ⟨hu1, hurest⟩ := undisturbed_succ hu
    obtain ⟨t, hstep, hgood, hless, hin, hends⟩ := step_progresses hg hp hu1
    by_cases ht : t.phase = .idle
    · exact ⟨1, t, by omega, run_succ 0 hstep, ht, hends ht, hin⟩
    · obtain ⟨k, u, hk, hrun, hidle, hresp, hinputs⟩ := ih hgood ht (by omega) (hin ▸ hurest)
      rw [hin] at hinputs
      exact ⟨k + 1, u, by omega, (run_succ k hstep).trans hrun, hidle, hresp, hinputs⟩

/-- Settles O58: each of the steps is a micro-step, after which fewer are left (`step_progresses`), and at first there
are at most 22: twice ten digits, the check and the terminator. -/
theorem everyCommandEnds : Obligations.EveryCommandEnds := by
  unfold Obligations.EveryCommandEnds
  exact fun s hg hp hu => run_ends_of_good hg hp (microStepsLeft_le hg hp) hu

/-! ### The counters of a command in progress (10_state.md R31, R39, 41_accumulator.md R109) -/

/-- The greatest digit count in each base. -/
theorem digits_le_of_base (b : Base) (s : State) : digits b s ≤ if b = .hex then 8 else 10 := by
  cases b with
  | hex => exact ndig_hex_le s.value.isLt
  | dec => exact digits_le_ten .dec s

/-- `CNT` is below the digit count in `EXTRACT`, and is the digit count after it. -/
theorem cnt_of_commandInv {s : State} (h : CommandInv s) (hp : s.phase ≠ .idle) :
    (s.phase = .extract ∧ s.cnt.toNat < digits s.base s) ∨
    (s.phase ≠ .extract ∧ s.cnt.toNat = digits s.base s) := by
  cases hphase : s.phase with
  | idle => exact absurd hphase hp
  | extract =>
    obtain ⟨-, hcnt, -⟩ := extractState_of_commandInv h hphase
    exact .inl ⟨rfl, hcnt⟩
  | check =>
    obtain ⟨⟨-, hcnt, -, -⟩, -⟩ := (commandInv_iff_of_check hphase).1 h
    exact .inr ⟨nofun, hcnt⟩
  | write =>
    obtain ⟨-, hcnt, -, -⟩ := (copyOutInv_of_commandInv h (.inl hphase)).extracted
    exact .inr ⟨nofun, hcnt⟩
  | termw =>
    obtain ⟨-, hcnt, -, -⟩ := (copyOutInv_of_commandInv h (.inr hphase)).extracted
    exact .inr ⟨nofun, hcnt⟩

/-- A command in progress has issued nothing, or is in `WRITE` or `TERMW`. -/
theorem issued_cases {s : State} (h : CommandInv s) (hp : s.phase ≠ .idle) :
    s.issued = [] ∨ s.phase = .write ∨ s.phase = .termw := by
  cases hphase : s.phase with
  | idle => exact absurd hphase hp
  | extract => exact .inl (commandInv_issued_eq_nil h (.inl hphase))
  | check => exact .inl (commandInv_issued_eq_nil h (.inr hphase))
  | write => exact .inr (.inl rfl)
  | termw => exact .inr (.inr rfl)

/-- `WIDX` is the number of bytes issued. -/
theorem CopyOutInv.issued_length {s : State} (h : CopyOutInv s) : s.issued.length = s.widx.toNat := by
  obtain ⟨-, hcnt, -, -⟩ := h.extracted
  have hle := h.widx_le
  rw [h.issued, List.length_take, commandWrites_length]
  omega

/-- Settles O56: `CNT` by its place in the digit count (`cnt_of_commandInv`); nothing is issued before `WRITE`, and from
there on `WIDX` bytes are. -/
theorem countersStayInRange : Obligations.CountersStayInRange := by
  unfold Obligations.CountersStayInRange
  rintro s ⟨-, -, h⟩ hp
  have hmax := digits_le_of_base s.base s
  have hpos := digits_pos s.base s
  have hcopied : s.phase = .write ∨ s.phase = .termw →
      s.widx.toNat ≤ s.cnt.toNat ∧ s.issued.length = s.widx.toNat := fun hwriting =>
    have hcopy := copyOutInv_of_commandInv h hwriting
    ⟨hcopy.widx_le, hcopy.issued_length⟩
  have hissued : s.issued.length ≤ s.cnt.toNat := by
    rcases issued_cases h hp with hnil | hwriting
    · rw [hnil]
      exact Nat.zero_le _
    · obtain ⟨hle, hlen⟩ := hcopied hwriting
      exact hlen.symm ▸ hle
  rcases cnt_of_commandInv h hp with ⟨hextract, hcnt⟩ | ⟨hextract, hcnt⟩
  · exact ⟨by omega, fun _ => by omega, fun hne => absurd hextract hne, hissued, hcopied⟩
  · exact ⟨by omega, fun he => absurd he hextract, fun _ => by omega, hissued, hcopied⟩

/-! ### The bytes issued so far (20_memory.md R57) -/

theorem CopyOutInv.issued_getElem? {s : State} (h : CopyOutInv s) {k : Nat} {x : Addr × Byte}
    (hx : s.issued[k]? = some x) : k < s.widx.toNat ∧ x.1 = s.bufferAddr k := by
  obtain ⟨hk, -⟩ := List.getElem?_eq_some_iff.1 hx
  rw [h.issued_length] at hk
  rw [h.issued, List.getElem?_take_of_lt hk, commandWrites_getElem?] at hx
  split at hx
  · cases hx
    exact ⟨hk, rfl⟩
  · cases hx

/-- Settles O57: nothing is issued before `WRITE`; from there on the `k`-th byte issued is the `k`-th write of the
command, `k` is below `WIDX`, and `WIDX` is at most `CNT`, which passed the check. -/
theorem bytesIssuedSoFarAreInTheBuffer : Obligations.BytesIssuedSoFarAreInTheBuffer := by
  unfold Obligations.BytesIssuedSoFarAreInTheBuffer
  rintro s ⟨-, -, h⟩ hp
  rcases issued_cases h hp with hnil | hwriting
  · rw [hnil]
    exact ⟨Nat.zero_le _, nofun⟩
  · have hcopy := copyOutInv_of_commandInv h hwriting
    obtain ⟨-, hcnt, -, -⟩ := hcopy.extracted
    have hdigits := digits_le_ten s.base s
    have hwidx := hcopy.widx_le
    have hroom := hcopy.room
    refine ⟨by rw [hcopy.issued_length]; omega, fun k x hx => ?_⟩
    obtain ⟨hk, haddr⟩ := hcopy.issued_getElem? hx
    exact ⟨by omega, by omega, haddr⟩

end Sys2Proof.Machine
end

section
/-! The command map and the look-up table, the registers after reset, and the bytes that each command writes
(30_encoding.md R75 to R77, 40_digit_lut.md, 43_commands.md R131, R132). -/

namespace Sys2Proof

/-! ### The command map (30_encoding.md R75 to R77) -/

/-- The commands are the words with field `zero` = 0 and `op` 1 or 2. -/
theorem exists_decode_eq_instr_iff (w : Word) :
    (∃ i, decode w = .instr i) ↔ w.toNat / 16 = 0 ∧ (w.toNat % 16 = 1 ∨ w.toNat % 16 = 2) := by
  have hword : ∀ i, decode w = .instr i ↔ w.toNat = (opOf i).toNat := fun i => by
    rw [decode_eq_instr_iff, ← BitVec.toNat_inj, encode_toNat]
  constructor
  · rintro ⟨i, hi⟩
    rw [(hword i).1 hi]
    cases i <;> decide
  · rintro ⟨hzero, hop⟩
    rcases hop with hop | hop
    · exact ⟨.enchex, (hword .enchex).2 (by show w.toNat = 1; omega)⟩
    · exact ⟨.encdec, (hword .encdec).2 (by show w.toNat = 2; omega)⟩

theorem exists_decode_eq_reserved_iff (w : Word) :
    (∃ why, decode w = .reserved why) ↔ ¬ ∃ i, decode w = .instr i := by
  cases decode w with
  | instr i => exact iff_of_false nofun fun h => h ⟨i, rfl⟩
  | reserved why => exact iff_of_true ⟨why, rfl⟩ nofun

/-- The two checks of a command word, as numbers (30_encoding.md R75, R76). -/
theorem commandWordWellFormed_iff (w : Word) :
    commandWordWellFormed w = true ↔ w.toNat / 16 = 0 ∧ (w.toNat % 16 = 1 ∨ w.toNat % 16 = 2) := by
  have hzero : (w >>> 4).toNat = w.toNat / 16 := by
    rw [BitVec.toNat_ushiftRight, Nat.shiftRight_eq_div_pow]
  have hop : (w &&& 0xF).toNat = w.toNat % 16 := by
    rw [BitVec.toNat_and]
    exact Nat.and_two_pow_sub_one_eq_mod w.toNat 4
  simp only [commandWordWellFormed, zeroFieldClear, opDefined, Bool.and_eq_true, Bool.or_eq_true, beq_iff_eq,
    ← BitVec.toNat_inj, hzero, hop]
  rfl

/-- Settles O3: both the decoder (`exists_decode_eq_instr_iff`) and the well-formedness check
(`commandWordWellFormed_iff`) single out field `zero` = 0 and `op` 1 or 2. -/
theorem reservedWordsAreTheRest : Obligations.ReservedWordsAreTheRest := by
  unfold Obligations.ReservedWordsAreTheRest
  intro w
  rw [exists_decode_eq_reserved_iff, commandWordWellFormed_iff, exists_decode_eq_instr_iff]
  exact ⟨by omega, Iff.rfl⟩

/-- Settles O1: each word is the encoding of its command, which `decode_eq_instr_iff` reads back. -/
theorem tableWordsDecode : Obligations.TableWordsDecode := by
  unfold Obligations.TableWordsDecode
  have hhex : encode .enchex = 0x00000001 := by decide
  have hdec : encode .encdec = 0x00000002 := by decide
  exact ⟨(decode_eq_instr_iff _ _).2 hhex.symm, (decode_eq_instr_iff _ _).2 hdec.symm, hhex, hdec⟩

/-- Settles O4: by `decode_eq_instr_iff`. -/
theorem decodeOfEncode : Obligations.DecodeOfEncode := by
  unfold Obligations.DecodeOfEncode
  exact fun i _ => (decode_eq_instr_iff (encode i) i).2 rfl

end Sys2Proof

namespace Sys2Proof.Machine

open Safety

/-! ### The look-up table (40_digit_lut.md R90) -/

/-- Settles O18: the value of a character as a digit is read back from it (`charValue_lut`). -/
theorem lutIsInjective : Obligations.LutIsInjective := by
  unfold Obligations.LutIsInjective
  intro d e u h
  have hvalue : some d.toNat = some e.toNat := by rw [← charValue_lut d u, h, charValue_lut]
  exact BitVec.eq_of_toNat_eq (Option.some.inj hvalue)

/-! ### The registers after reset (10_state.md R38) -/

/-- Settles O5: every register is 0 in `State.reset`, and a host read of 0 is 0. -/
theorem resetRegisterValues : Obligations.ResetRegisterValues := by
  unfold Obligations.ResetRegisterValues
  refine ⟨rfl, rfl, rfl, rfl, rfl, rfl, rfl, fun r => ?_⟩
  cases r <;> rfl

/-! ### What each command writes (43_commands.md R131, R132) -/

/-- The hexadecimal digit of weight `16^i` is nibble `i` of the value. -/
theorem digitChar_hex (v : Word) (i : Nat) (u : Bool) :
    digitChar 16 v.toNat i u = lut (v.extractLsb' (4 * i) 4) u := by
  have hnibble : BitVec.ofNat 4 (dig 16 v.toNat i) = v.extractLsb' (4 * i) 4 := by
    apply BitVec.eq_of_toNat_eq
    rw [BitVec.toNat_ofNat, BitVec.extractLsb'_toNat, Nat.shiftRight_eq_div_pow, Nat.pow_mul, dig, Nat.mod_mod]
  rw [digitChar, hnibble]

/-- Settles O24: the buffer holds the digit characters (`encodeCommand_read_digit`), each that of a nibble
(`digitChar_hex`). -/
theorem enchexWritesTheHexDigits : Obligations.EnchexWritesTheHexDigits := by
  unfold Obligations.EnchexWritesTheHexDigits
  intro s hs
  refine ⟨_, exec_eq .enchex s, encodeCommand_len_of_succeeds hs, encodeCommand_status_of_succeeds hs,
    fun j hj => ?_, encodeCommand_read_terminator hs⟩
  rw [← digitChar_hex]
  exact encodeCommand_read_digit hs hj

/-- The character of a decimal digit is 0x30 plus the digit, in either case (40_digit_lut.md R91). -/
theorem digitChar_dec (v i : Nat) (u : Bool) : digitChar 10 v i u = BitVec.ofNat 8 (0x30 + v / 10 ^ i % 10) :=
  lut_of_lt_ten (Nat.mod_lt _ (by decide)) u

/-- Settles O25: the buffer holds the digit characters (`encodeCommand_read_digit`), each 0x30 plus its digit
(`digitChar_dec`). -/
theorem encdecWritesTheDecimalDigits : Obligations.EncdecWritesTheDecimalDigits := by
  unfold Obligations.EncdecWritesTheDecimalDigits
  intro s hs
  refine ⟨_, exec_eq .encdec s, encodeCommand_len_of_succeeds hs, encodeCommand_status_of_succeeds hs,
    fun j hj => ?_, encodeCommand_read_terminator hs⟩
  rw [← digitChar_dec _ _ s.upper]
  exact encodeCommand_read_digit hs hj

/-- Settles O34: every byte is at an offset below `CAP` (`mem_encodeCommand_issued`), and under `NoWrap` the sum of
`DST` and such an offset does not wrap. -/
theorem noWrapMeansContiguous : Obligations.NoWrapMeansContiguous := by
  unfold Obligations.NoWrapMeansContiguous
  intro i s hnowrap
  refine ⟨_, exec_eq i s, fun w hw => ?_⟩
  obtain ⟨k, hk, haddr⟩ := mem_encodeCommand_issued hw
  rw [NoWrap] at hnowrap
  rw [haddr, bufferAddr_toNat, Nat.mod_eq_of_lt (by omega)]
  omega

/-! ### ENCDEC does not depend on the case (40_digit_lut.md R93) -/

section EncdecOperands

variable {s s' : State} (hvalue : s.value = s'.value) (hdst : s.dst = s'.dst) (hcap : s.cap = s'.cap)
  (hterm : s.term = s'.term)

include hvalue hdst hterm in
theorem commandWrites_dec_congr : commandWrites .dec s = commandWrites .dec s' := by
  simp only [commandWrites, radix_dec, digitChar_dec, State.bufferAddr, hvalue, hdst, hterm]

include hvalue hterm in
theorem bytes_needed_dec_congr : digits .dec s + s.termCount = digits .dec s' + s'.termCount := by
  rw [digits, digits, State.termCount, State.termCount, hvalue, hterm]

include hvalue hdst hcap hterm

theorem encodeCommand_dec_congr :
    (encodeCommand .dec s).len = (encodeCommand .dec s').len ∧
      (encodeCommand .dec s).status = (encodeCommand .dec s').status ∧
      (encodeCommand .dec s).issued = (encodeCommand .dec s').issued := by
  have hneed := bytes_needed_dec_congr hvalue hterm
  have hbad : s.badDestination = s'.badDestination := by
    rw [State.badDestination, State.badDestination, hdst, hcap]
  have hs : Succeeds .dec s ↔ Succeeds .dec s' := by rw [Succeeds, Succeeds, hdst, hcap, hneed]
  refine ⟨?_, ?_, ?_⟩
  · simp only [encodeCommand_len, hs, digits, hvalue]
  · simp only [encodeCommand_status, hbad, hneed, hcap]
  · simp only [encodeCommand_issued, hs, commandWrites_dec_congr hvalue hdst hterm]

end EncdecOperands

/-- Settles O42: decimal characters have no case (`digitChar_dec`), and nothing else of a command looks at
`CFG.UPPER`. -/
theorem encdecIgnoresUpper : Obligations.EncdecIgnoresUpper := by
  unfold Obligations.EncdecIgnoresUpper
  intro s s' hvalue hdst hcap hterm
  exact ⟨_, _, exec_eq .encdec s, exec_eq .encdec s', encodeCommand_dec_congr hvalue hdst hcap hterm⟩

end Sys2Proof.Machine
end
